-- ==== Sys2Proof/Word.lean ====
section
/-! DEFINITION. The word types of the serial-frame-accumulator and exact fractions (spec 00_scope.md section 5).
Pseudocode integers are mathematical integers and quotients are exact rationals, so a fraction is kept as a
numerator and a denominator: the kernel can evaluate it on numerals. -/

namespace Sys2Proof

/-- One byte: a frame byte (R13) or a command word (R41). -/
abbrev Byte := BitVec 8

/-- The response word (R19, R45): 32 parallel bits with no byte order (R34). -/
abbrev Word := BitVec 32

/-- The frame buffer `buf[0..4]` (R13): tag, value MSB, value LSB, checksum, unused byte. -/
abbrev FrameBuf := Vector Byte 5

/-- An exact rational `num / den` ("`q` values written as fractions are exact rationals", 00_scope.md section 5).
Every fraction the machine builds has a positive denominator. -/
structure Frac where
  num : Int
  den : Nat
  deriving DecidableEq, Repr

/-- The rational a fraction stands for. -/
def Frac.toRat (q : Frac) : ℚ := (q.num : ℚ) / (q.den : ℚ)

end Sys2Proof
end

