-- ==== Sys2Proof/Syntax.lean ====
section
/-! DEFINITION. The commands of the block (spec 30_encoding.md R41): one constructor per row of spec/opcode_table.json.
Reserved words (R47) are no row of the table and no constructor: the decoder refuses them by name and the machine
answers them with `execReserved`. -/

namespace Sys2Proof

/-- The command set. -/
inductive Instr where
  /-- STORE b: store one bit into the frame (R60); `true` is the source's `store(true)` (R42). -/
  | store (b : Bool)
  /-- FRESET: clear the frame buffer and the cursor (R110). -/
  | freset
  /-- READMORE: are more bits needed (R80). -/
  | readmore
  /-- ISVALID: read the frame-valid flag (R81). -/
  | isvalid
  /-- GETVALUE HUM (R90). -/
  | getvalueHum
  /-- GETVALUE TK (R91). -/
  | getvalueTk
  /-- GETVALUE TC (R92). -/
  | getvalueTc
  /-- GETVALUE CO2 (R93). -/
  | getvalueCo2
  /-- GETREADING HUM (R96). -/
  | getreadingHum
  /-- GETREADING TEMP (R97). -/
  | getreadingTemp
  /-- GETREADING CO2 (R98). -/
  | getreadingCo2
  deriving DecidableEq, Repr

end Sys2Proof
end

