-- ==== Sys2Proof/WellFormed.lean ====
section
/-! DEFINITION. Which command words are well formed (spec 30_encoding.md R41 to R44, R47). An instruction's only operand
is STORE's bit, which its type bounds already, so every term of `Instr` is well formed; the checks that can fail are
those on the raw word, stated here field by field and, separately, as the reserved ranges the spec lists. -/

namespace Sys2Proof

/-- R42: STORE has `cmd[3:1] = 000`. -/
def storeArgOk (arg : BitVec 4) : Bool := arg.extractLsb' 1 3 == 0#3

/-- R41: FRESET, READMORE and ISVALID have ARG 0. -/
def noArgOk (arg : BitVec 4) : Bool := arg == 0#4

/-- R43: GETVALUE has `cmd[3:2] = 00`, and all four selectors are defined. -/
def getvalueArgOk (arg : BitVec 4) : Bool := arg.extractLsb' 2 2 == 0#2

/-- R44: GETREADING has `cmd[3:2] = 00`, and the index 3 is reserved. -/
def getreadingArgOk (arg : BitVec 4) : Bool := arg.extractLsb' 2 2 == 0#2 && arg.extractLsb' 0 2 != 3#2

/-- A command word is defined when its OP is in the map of R41 and its ARG is one that OP allows. -/
def wordDefined (w : Byte) : Bool :=
  match (w.extractLsb' 4 4).toNat with
  | 0 => storeArgOk (w.extractLsb' 0 4)
  | 1 => noArgOk (w.extractLsb' 0 4)
  | 2 => noArgOk (w.extractLsb' 0 4)
  | 3 => noArgOk (w.extractLsb' 0 4)
  | 4 => getvalueArgOk (w.extractLsb' 0 4)
  | 5 => getreadingArgOk (w.extractLsb' 0 4)
  | _ => false

/-- The reserved words as R47 lists them, range by range. -/
def wordReserved (w : Byte) : Bool :=
  let n := w.toNat
  (decide (0x02 ≤ n) && decide (n ≤ 0x0F)) || (decide (0x11 ≤ n) && decide (n ≤ 0x1F)) ||
  (decide (0x21 ≤ n) && decide (n ≤ 0x2F)) || (decide (0x31 ≤ n) && decide (n ≤ 0x3F)) ||
  (decide (0x44 ≤ n) && decide (n ≤ 0x4F)) || (decide (0x53 ≤ n) && decide (n ≤ 0x5F)) ||
  decide (0x60 ≤ n)

/-- Every term of `Instr` is a command of the map: STORE's operand is one bit by its type (R42) and the other rows carry
no operand. -/
def Instr.wellFormed (i : Instr) : Bool :=
  match i with
  | .store _ => true
  | .freset => true
  | .readmore => true
  | .isvalid => true
  | .getvalueHum => true
  | .getvalueTk => true
  | .getvalueTc => true
  | .getvalueCo2 => true
  | .getreadingHum => true
  | .getreadingTemp => true
  | .getreadingCo2 => true

end Sys2Proof
end

