-- ==== Sys2Proof/Decode.lean ====
section
/-! DEFINITION. The decoder and the encoder of command words (spec 30_encoding.md R41 to R44, R47, R48). "A decoder is
total: each of the 256 words is exactly one of the 12 defined commands or reserved" (R48). -/

namespace Sys2Proof

/-- Why a word is no command of the map (R47). -/
inductive DecodeError where
  /-- OP is none of 0 to 5. -/
  | reservedOp
  /-- OP is defined and does not allow this ARG. -/
  | reservedArg
  deriving DecidableEq, Repr

/-- The field OP, bits 7:4 of a command word (R41). -/
def opField (w : Byte) : BitVec 4 := w.extractLsb' 4 4

/-- The field ARG, bits 3:0 of a command word (R41). -/
def argField (w : Byte) : BitVec 4 := w.extractLsb' 0 4

/-- STORE's operand is `cmd[0]`, with `cmd[3:1]` required to be 000; 1 is `store(true)` (R42). -/
def decodeStore (arg : BitVec 4) : Except DecodeError Instr :=
  match arg.toNat with
  | 0 => .ok (.store false)
  | 1 => .ok (.store true)
  | _ => .error .reservedArg

/-- A command without operand has ARG 0 (R41). -/
def decodeNoArg (i : Instr) (arg : BitVec 4) : Except DecodeError Instr :=
  if arg = 0#4 then .ok i else .error .reservedArg

/-- GETVALUE's selector: 0 humidity, 1 temperatureKelvin, 2 temperatureCelsius, 3 co2 (R43). -/
def decodeGetvalue (arg : BitVec 4) : Except DecodeError Instr :=
  match arg.toNat with
  | 0 => .ok .getvalueHum
  | 1 => .ok .getvalueTk
  | 2 => .ok .getvalueTc
  | 3 => .ok .getvalueCo2
  | _ => .error .reservedArg

/-- GETREADING's index: 0 humidity, 1 temperature, 2 CO2; 3 is reserved (R44). -/
def decodeGetreading (arg : BitVec 4) : Except DecodeError Instr :=
  match arg.toNat with
  | 0 => .ok .getreadingHum
  | 1 => .ok .getreadingTemp
  | 2 => .ok .getreadingCo2
  | _ => .error .reservedArg

/-- The command a word stands for, or the name of its refusal (R41, R47). -/
def decode (w : Byte) : Except DecodeError Instr :=
  match (opField w).toNat with
  | 0 => decodeStore (argField w)
  | 1 => decodeNoArg .freset (argField w)
  | 2 => decodeNoArg .readmore (argField w)
  | 3 => decodeNoArg .isvalid (argField w)
  | 4 => decodeGetvalue (argField w)
  | 5 => decodeGetreading (argField w)
  | _ => .error .reservedOp

/-- The word of a command: OP in bits 7:4 and ARG in bits 3:0 (the opcode map of R41). -/
def encode (i : Instr) : Byte :=
  match i with
  | .store b => 0x0#4 ++ (0b000#3 ++ BitVec.ofBool b)
  | .freset => 0x1#4 ++ 0b0000#4
  | .readmore => 0x2#4 ++ 0b0000#4
  | .isvalid => 0x3#4 ++ 0b0000#4
  | .getvalueHum => 0x4#4 ++ 0b0000#4
  | .getvalueTk => 0x4#4 ++ 0b0001#4
  | .getvalueTc => 0x4#4 ++ 0b0010#4
  | .getvalueCo2 => 0x4#4 ++ 0b0011#4
  | .getreadingHum => 0x5#4 ++ 0b0000#4
  | .getreadingTemp => 0x5#4 ++ 0b0001#4
  | .getreadingCo2 => 0x5#4 ++ 0b0010#4

/-- The command word that a table word stands for: every command is one 8-bit word (R48), so it is the low `nbits` bits
of `w`, zero above them. -/
def tableWord (nbits w : Nat) : Byte := BitVec.ofNat 8 (w % 2 ^ nbits)

/-- The instruction the decoder reads from a word numbered as spec/opcode_table.json numbers it. -/
def decodeTableWord (nbits w : Nat) : Option Instr := (decode (tableWord nbits w)).toOption

end Sys2Proof
end

