-- ==== Sys2Proof/Config.lean ====
section
/-! DEFINITION. The named parameters of the block (spec 00_scope.md R5; 93_implementation_defined.md U12 asks that the
literals be kept as named parameters) and the open parameter CELSIUS_ARITH (42_readout.md R95, decision D5).
No value of the spec is left free, so there is no opaque constant here. -/

namespace Sys2Proof

/-- CELSIUS_ARITH, "How that subtraction rounds is the named parameter" (R95). -/
inductive CelsiusArith where
  /-- B32_TWO_STEP: binary32 Kelvin minus the binary32 constant C273, rounded once. -/
  | b32TwoStep
  /-- EXACT_RNE: the exact decimal difference, rounded once. -/
  | exactRne
  deriving DecidableEq, Repr

/-- FRAME_BITS: bits per frame. -/
@[simp] abbrev Config.frameBits : Nat := 40

/-- FRAME_BYTES: bytes per frame. -/
@[simp] abbrev Config.frameBytes : Nat := 5

/-- TAG_HUM. -/
@[simp] abbrev Config.tagHum : Byte := 0x41#8

/-- TAG_TEMP. -/
@[simp] abbrev Config.tagTemp : Byte := 0x42#8

/-- TAG_CO2. -/
@[simp] abbrev Config.tagCo2 : Byte := 0x50#8

/-- HUM_DIVISOR: truncating integer division. -/
@[simp] abbrev Config.humDivisor : Nat := 100

/-- TEMP_DIVISOR: exact division. -/
@[simp] abbrev Config.tempDivisor : Nat := 16

/-- The modulus of the checksum, `(byte0+byte1+byte2) mod 256`. -/
@[simp] abbrev Config.checksumModulus : Nat := 256

/-- KELVIN_OFFSET: 273.15 as the exact fraction 27315/100. -/
@[simp] abbrev Config.kelvinOffset : Frac := ⟨27315, 100⟩

/-- The conformance default of CELSIUS_ARITH (R5, R95, decision D5). It stands in `State.reset` only, and no meaning
reads it: see assumption log 2. -/
@[simp] abbrev Config.celsiusDefault : CelsiusArith := .b32TwoStep

end Sys2Proof
end

