-- ==== Sys2Proof/Machine/State.lean ====
section
/-! DEFINITION. The state of the block (spec 10_state.md R10 to R19), its reset (R26, 70_reset_and_hazards.md R140) and
the reasons a step can stop. All of it is plain data. -/

namespace Sys2Proof.Machine

/-- The levels the host drives on the input ports at one rising edge of `clk` (R40). -/
structure EdgeInput where
  /-- `rst`: synchronous, active-high construction reset. -/
  rst : Bool
  /-- `cmd_valid`: a command is offered in this cycle. -/
  cmdValid : Bool
  /-- `cmd`: the command word. -/
  cmd : Byte
  deriving DecidableEq, Repr

/-- The state vector of R10, and after it the two inputs of the step that R10 names (the host's schedule and the
parameter CELSIUS_ARITH), which a step without a second argument can only read from the state. -/
structure State where
  /-- `cursor`: bits stored into the current frame, legal values 0..40 (R12). -/
  cursor : BitVec 6
  /-- `buf[0..4]`: the frame buffer (R13). -/
  buf : FrameBuf
  /-- `frame_valid`: checksum result of the last completed frame (R14). -/
  frameValid : Bool
  /-- `hum_valid` (R15). -/
  humValid : Bool
  /-- `hum_q`: the truncated quotient rawValue div 100 (R15). -/
  humQ : BitVec 10
  /-- `tmp_valid` (R16). -/
  tmpValid : Bool
  /-- `tmp_raw`: sixteenths of a Kelvin (R16). -/
  tmpRaw : BitVec 16
  /-- `co2_valid` (R17). -/
  co2Valid : Bool
  /-- `co2_raw` (R17). -/
  co2Raw : BitVec 16
  /-- `rsp_data` (R19). -/
  rspData : Word
  /-- `rsp_err` (R19). -/
  rspErr : Bool
  /-- The parameter CELSIUS_ARITH (R95); the machine never writes it. The model's own field, log 2. -/
  celsiusArith : CelsiusArith
  /-- What the host drives at the coming clock edges, first first; after the list the ports are idle. The model's own
  field, log 1. -/
  inputs : List EdgeInput
  deriving DecidableEq, Repr

/-- Why a step stops with a fault. -/
inductive Fault where
  /-- Raised by every accepted command and every idle edge in a state whose 6-bit cursor holds 41..63: "A model that
  admits them must treat a state holding one as faulted" (R21, D16, U5). No run from reset reaches it. Safe. -/
  | cursorOutOfRange
  deriving DecidableEq, Repr

/-- Why a step gives an instruction no meaning. -/
inductive Refusal where
  /-- Raised by an arm of `exec` whose instruction has no meaning yet; no arm does so now. Safe. -/
  | notModelled (mnemonic : String)
  deriving DecidableEq, Repr

/-- The machine right after the construction reset (R26, R140), with nothing scheduled by the host and CELSIUS_ARITH at
its conformance default. -/
def State.reset : State where
  cursor := 0#6
  buf := #v[0x00#8, 0x00#8, 0x00#8, 0x00#8, 0x00#8]
  frameValid := false
  humValid := false
  humQ := 0#10
  tmpValid := false
  tmpRaw := 0#16
  co2Valid := false
  co2Raw := 0#16
  rspData := 0x00000000#32
  rspErr := false
  celsiusArith := Config.celsiusDefault
  inputs := []

/-- The cursor holds one of its legal values 0..40 (R12, R21). -/
abbrev State.cursorLegal (s : State) : Prop := s.cursor.toNat ≤ 40

end Sys2Proof.Machine
end

