-- ==== Sys2Proof/Machine/Ops.lean ====
section
/-! DEFINITION. The named operations over the registers: the bit-write primitive (spec 20_memory.md R31), `Respond`
(00_scope.md section 5), the register writes of 40_store.md and 43_freset.md, the construction reset
(70_reset_and_hazards.md R140) and the sampling of the input ports (30_encoding.md R40).
There is no operation for taking an exception or returning from one: "The block raises no exception, trap, fault or
abort, and has no trap mechanism" (60_exceptions.md R120, R124), and no memory to read or write (20_memory.md R30). -/

namespace Sys2Proof.Machine

/-- Bit `j` of a byte set or cleared, whatever it was (R31). -/
def setBit (v : Byte) (j : Nat) (b : Bool) : Byte :=
  if b then v ||| (1#8 <<< j) else v &&& ~~~(1#8 <<< j)

/-- `BufWriteBit(k, b)` on a buffer, for a position `k` in 0..39: byte `k div 8`, bit `7 - (k mod 8)` (R31). -/
def bufWriteBit (buf : FrameBuf) (k : Nat) (b : Bool) : FrameBuf :=
  buf.setIfInBounds (k / 8) (setBit (buf[k / 8]?.getD 0#8) (7 - k % 8) b)

/-- The bit at frame position `k` in 0..39 of a buffer (R31, R32). -/
def bufBit (buf : FrameBuf) (k : Nat) : Bool := (buf[k / 8]?.getD 0#8).getLsbD (7 - k % 8)

/-- `Respond(d, e)` (00_scope.md section 5, R19). -/
def State.respond (s : State) (d : Word) (e : Bool) : State := { s with rspData := d, rspErr := e }

/-- `BufWriteBit(k, b)` on the state (R31). -/
def State.writeBit (s : State) (k : Nat) (b : Bool) : State := { s with buf := bufWriteBit s.buf k b }

/-- `cursor <- c` (R12). -/
def State.setCursor (s : State) (c : BitVec 6) : State := { s with cursor := c }

/-- All 40 bits of the buffer to 0 (R13, R110). -/
def State.clearBuf (s : State) : State := { s with buf := #v[0x00#8, 0x00#8, 0x00#8, 0x00#8, 0x00#8] }

/-- `frame_valid <- v` (R14). -/
def State.setFrameValid (s : State) (v : Bool) : State := { s with frameValid := v }

/-- `hum_q <- q; hum_valid <- 1` (R65). -/
def State.setHum (s : State) (q : BitVec 10) : State := { s with humQ := q, humValid := true }

/-- `tmp_raw <- raw; tmp_valid <- 1` (R66). -/
def State.setTmp (s : State) (raw : BitVec 16) : State := { s with tmpRaw := raw, tmpValid := true }

/-- `co2_raw <- raw; co2_valid <- 1` (R67). -/
def State.setCo2 (s : State) (raw : BitVec 16) : State := { s with co2Raw := raw, co2Valid := true }

/-- The host's schedule for the coming edges replaced. -/
def State.setInputs (s : State) (l : List EdgeInput) : State := { s with inputs := l }

/-- CONSTRUCT (R140): every register of R10. The parameter and the host's schedule are no registers and stay. -/
def State.construct (s : State) : State :=
  { s with
    cursor := 0#6
    buf := #v[0x00#8, 0x00#8, 0x00#8, 0x00#8, 0x00#8]
    frameValid := false
    humValid := false
    humQ := 0#10
    tmpValid := false
    tmpRaw := 0#16
    co2Valid := false
    co2Raw := 0#16
    rspData := 0x00000000#32
    rspErr := false }

/-- A command or an idle edge that would lead from `s` to `t`: it does, in a state whose cursor is legal, and is a fault
in a state that holds 41..63 (R21, D16). -/
def whenLegal (s t : State) : Host.Outcome State Fault Refusal :=
  if s.cursorLegal then .next t else .fault .cursorOutOfRange

/-- What one rising edge of `clk` does (R40). -/
inductive EdgeAction where
  /-- `rst = 1`: the construction reset, whatever `cmd_valid` is (R141). -/
  | construct
  /-- `rst = 0`, `cmd_valid = 1`: the word on `cmd` is accepted. -/
  | command (w : Byte)
  /-- Neither: nothing changes. -/
  | idle
  deriving DecidableEq, Repr

/-- The action of the levels at one edge: `rst` has priority (R40, R141). -/
def edgeAction (e : EdgeInput) : EdgeAction :=
  if e.rst then .construct else if e.cmdValid then .command e.cmd else .idle

/-- The action of the coming edge; an empty schedule is an idle host. -/
def State.nextAction (s : State) : EdgeAction :=
  match s.inputs with
  | [] => .idle
  | e :: _ => edgeAction e

/-- The state at the coming edge, with that edge taken off the schedule. -/
def State.popInput (s : State) : State := s.setInputs s.inputs.tail

/-- The host offers the word `w` at the coming edge, before everything it had scheduled. -/
def State.offer (s : State) (w : Byte) : State := s.setInputs (⟨false, true, w⟩ :: s.inputs)

/-- The response register as the host reads it on the output ports (R19, R40, R147). -/
def State.response (s : State) : Word × Bool := (s.rspData, s.rspErr)

/-- The next state of an outcome, if it has one. -/
def nextOf (o : Host.Outcome State Fault Refusal) : Option State :=
  match o with
  | .next t => some t
  | .fault _ => none
  | .refused _ => none

end Sys2Proof.Machine
end

