-- ==== Sys2Proof/Machine/Freset.lean ====
section
/-! DEFINITION. FRESET, "a frame-buffer reset, not a data reset" (spec 43_freset.md R110). -/

namespace Sys2Proof.Machine

/-- FRESET (R110): the buffer and the cursor to 0; the flag and the readings stay. -/
def execFreset (s : State) : Host.Outcome State Fault Refusal :=
  whenLegal s ((s.clearBuf.setCursor 0#6).respond 0x00000000#32 false)

end Sys2Proof.Machine
end

