-- ==== Sys2Proof/Machine/Float.lean ====
section
/-! DEFINITION. IEEE 754 binary32 as the spec uses it (00_scope.md section 5, 42_readout.md R94) and the Celsius
subtraction with its rounding parameter (R95). Everything is integer arithmetic on exact fractions. -/

namespace Sys2Proof.Machine

/-- A binary32 datum by its three fields. -/
structure Binary32 where
  sign : Bool
  exponent : BitVec 8
  fraction : BitVec 23
  deriving DecidableEq, Repr

/-- `bits32(x)`: sign in bit 31, biased exponent in bits 30:23, fraction in bits 22:0. -/
def bits32 (x : Binary32) : Word := BitVec.ofBool x.sign ++ x.exponent ++ x.fraction

/-- The fields of a binary32 word, the inverse of `bits32`. -/
def ofBits32 (w : Word) : Binary32 :=
  ⟨w.getLsbD 31, w.extractLsb' 23 8, w.extractLsb' 0 23⟩

/-- Finite: not an infinity and not a NaN. -/
def isFinite32 (x : Binary32) : Bool := x.exponent != 255#8

/-- The significand as an integer, with the hidden bit where the exponent field is not 0. -/
def significand32 (x : Binary32) : Nat :=
  if x.exponent = 0#8 then x.fraction.toNat else 2 ^ 23 + x.fraction.toNat

/-- The exact value of a finite binary32: significand times 2 to the exponent minus 150 (an exponent field of 0 counts
as 1). It says nothing of an infinity or a NaN. -/
def exact32 (x : Binary32) : Frac :=
  let e := max x.exponent.toNat 1
  let mag : Int := ((significand32 x * 2 ^ (e - 150) : Nat) : Int)
  ⟨if x.sign then -mag else mag, 2 ^ (150 - e)⟩

/-- `n / d` rounded to the nearest integer, ties to even. -/
def roundHalfEven (n d : Nat) : Nat :=
  if 2 * (n % d) < d then n / d
  else if d < 2 * (n % d) then n / d + 1
  else n / d + n / d % 2

/-- The exponent of the binade of a positive `n / d`: the largest `e` with `2 ^ e ≤ n / d`. -/
def floorLog2 (n d : Nat) : Int :=
  let e : Int := (Nat.log2 n : Int) - (Nat.log2 d : Int)
  if d * 2 ^ e.toNat ≤ n * 2 ^ (-e).toNat then e else e - 1

/-- Exponent and fraction fields, as one 31-bit number, of the binary32 nearest to a positive `n / d`: binades below
`2 ^ -126` share the subnormal spacing, a significand that rounds up to `2 ^ 24` carries into the exponent, and what
would exceed the largest exponent is the infinity. -/
def magnitude32 (n d : Nat) : Nat :=
  let e := max (floorLog2 n d) (-126)
  let k := 23 - e
  min ((e + 126).toNat * 2 ^ 23 + roundHalfEven (n * 2 ^ k.toNat) (d * 2 ^ (-k).toNat)) (255 * 2 ^ 23)

/-- `f32(q)`: the binary32 nearest to the exact rational `q`, ties to even; 0 gives +0.0. -/
def f32 (q : Frac) : Binary32 :=
  if q.num = 0 then ⟨false, 0#8, 0#23⟩
  else
    let m := magnitude32 q.num.natAbs q.den
    ⟨decide (q.num < 0), BitVec.ofNat 8 (m / 2 ^ 23), BitVec.ofNat 23 (m % 2 ^ 23)⟩

/-- An integer as a fraction. -/
def intFrac (n : Nat) : Frac := ⟨n, 1⟩

/-- `raw / 16`, the exact Kelvin value of a raw temperature (R16, R20). -/
def kelvinFrac (raw : BitVec 16) : Frac := ⟨raw.toNat, Config.tempDivisor⟩

/-- The exact difference of two fractions. -/
def fracSub (a b : Frac) : Frac := ⟨a.num * b.den - b.num * a.den, a.den * b.den⟩

/-- C273 = f32(273.15) (R95), taken as the exact value of that binary32. -/
def c273 : Frac := exact32 (f32 Config.kelvinOffset)

/-- `celsius(raw)` under a value of CELSIUS_ARITH (R95). -/
def celsius (mode : CelsiusArith) (raw : BitVec 16) : Binary32 :=
  match mode with
  | .b32TwoStep => f32 (fracSub (kelvinFrac raw) c273)
  | .exactRne => f32 (fracSub (kelvinFrac raw) Config.kelvinOffset)

end Sys2Proof.Machine
end

