-- ==== Sys2Proof/Machine/Operands.lean ====
section
/-! DEFINITION. What the commands read and how a response word is laid out: the raw value of a frame (spec
20_memory.md R33), the 40-bit frame word (30_encoding.md R46), the response formats (R45), the abstract values of
the readings (10_state.md R20) and the phase (R18). -/

namespace Sys2Proof.Machine

/-- `raw = {buf[1], buf[2]}`: 16 bits unsigned, big-endian (R33, R62). -/
def rawValue (buf : FrameBuf) : BitVec 16 := buf[1] ++ buf[2]

/-- The quotient `raw div 100` in 10 bits: truncating unsigned division (R65). -/
def humidityOf (raw : BitVec 16) : BitVec 10 := BitVec.ofNat 10 (raw.toNat / Config.humDivisor)

/-- `F[39:0]`, the frame as one word: `F[39]` is the first bit delivered (R46). -/
def frameWord (buf : FrameBuf) : BitVec 40 := buf[0] ++ buf[1] ++ buf[2] ++ buf[3] ++ buf[4]

/-- `zext_32` of a one-bit answer (R45). -/
def bitWord (b : Bool) : Word := (BitVec.ofBool b).setWidth 32

/-- GETVALUE's answer: the binary32 word of a valid reading, else the sentinel 0.0 (R45, R90 to R93). -/
def valueWord (valid : Bool) (x : Binary32) : Word := if valid then bits32 x else 0x00000000#32

/-- GETREADING's answer: 15 zero bits, the valid bit, the value register (R45, R96 to R98). -/
def readingWord (valid : Bool) (value : BitVec 16) : Word := 0#15 ++ BitVec.ofBool valid ++ value

/-- The phases of the state machine (R18): a function of the cursor, not a register. -/
inductive Phase where
  | accumulating (c : Nat)
  | frameComplete
  deriving DecidableEq, Repr

/-- `phase` of a legal state (R18). -/
def phase (s : State) : Phase :=
  if s.cursor.toNat < Config.frameBits then .accumulating s.cursor.toNat else .frameComplete

/-- `val(hum)`: an integer (R20). -/
def humValue (s : State) : ℚ := (s.humQ.toNat : ℚ)

/-- `val(tmp)`: Kelvin, a multiple of 1/16 (R20). -/
def tmpValue (s : State) : ℚ := (s.tmpRaw.toNat : ℚ) / 16

/-- `val(co2)`: an integer (R20). -/
def co2Value (s : State) : ℚ := (s.co2Raw.toNat : ℚ)

end Sys2Proof.Machine
end

