-- ==== Sys2Proof/Machine/Readout.lean ====
section
/-! DEFINITION. The value readout commands (spec 42_readout.md R90 to R98): they write only the response register
(20_memory.md R37). -/

namespace Sys2Proof.Machine

/-- GETVALUE HUM (R90). -/
def execGetvalueHum (s : State) : Host.Outcome State Fault Refusal :=
  whenLegal s (s.respond (valueWord s.humValid (f32 (intFrac s.humQ.toNat))) false)

/-- GETVALUE TK (R91). -/
def execGetvalueTk (s : State) : Host.Outcome State Fault Refusal :=
  whenLegal s (s.respond (valueWord s.tmpValid (f32 (kelvinFrac s.tmpRaw))) false)

/-- GETVALUE TC (R92): the Kelvin reading's valid bit, and the subtraction of R95. -/
def execGetvalueTc (s : State) : Host.Outcome State Fault Refusal :=
  whenLegal s (s.respond (valueWord s.tmpValid (celsius s.celsiusArith s.tmpRaw)) false)

/-- GETVALUE CO2 (R93). -/
def execGetvalueCo2 (s : State) : Host.Outcome State Fault Refusal :=
  whenLegal s (s.respond (valueWord s.co2Valid (f32 (intFrac s.co2Raw.toNat))) false)

/-- GETREADING HUM (R96). -/
def execGetreadingHum (s : State) : Host.Outcome State Fault Refusal :=
  whenLegal s (s.respond (readingWord s.humValid (s.humQ.setWidth 16)) false)

/-- GETREADING TEMP (R97). -/
def execGetreadingTemp (s : State) : Host.Outcome State Fault Refusal :=
  whenLegal s (s.respond (readingWord s.tmpValid s.tmpRaw) false)

/-- GETREADING CO2 (R98). -/
def execGetreadingCo2 (s : State) : Host.Outcome State Fault Refusal :=
  whenLegal s (s.respond (readingWord s.co2Valid s.co2Raw) false)

end Sys2Proof.Machine
end

