-- ==== Sys2Proof/Machine/Status.lean ====
section
/-! DEFINITION. The status commands (spec 41_status.md R80, R81): they write only the response register (20_memory.md
R37). -/

namespace Sys2Proof.Machine

/-- READMORE (R80): 1 while the cursor is below 40. -/
def execReadmore (s : State) : Host.Outcome State Fault Refusal :=
  whenLegal s (s.respond (bitWord (decide (s.cursor.toNat < Config.frameBits))) false)

/-- ISVALID (R81). -/
def execIsvalid (s : State) : Host.Outcome State Fault Refusal :=
  whenLegal s (s.respond (bitWord s.frameValid) false)

end Sys2Proof.Machine
end

