-- ==== Sys2Proof/Machine/Flags.lean ====
section
/-! DEFINITION. The block's one status flag is `frame_valid` (spec 10_state.md R14); its computation is the
checksum-validator-mod256 (40_store.md R62). There are no condition codes, no carry and no overflow flag (R14). -/

namespace Sys2Proof.Machine

/-- `calc <- (buf[0] + buf[1] + buf[2]) mod 256`: the sum 0..765 is taken without wrap and then reduced (R62, R70). -/
def checksum (b0 b1 b2 : Byte) : Byte :=
  BitVec.ofNat 8 ((b0.toNat + b1.toNat + b2.toNat) % Config.checksumModulus)

/-- Byte 3 equals the checksum of bytes 0 to 2; byte 4 does not enter (R62). -/
def checksumOk (buf : FrameBuf) : Bool := buf[3] == checksum buf[0] buf[1] buf[2]

end Sys2Proof.Machine
end

