-- ==== Sys2Proof/Machine/Store.lean ====
section
/-! DEFINITION. STORE with frame completion, checksum validation and tag dispatch (spec 40_store.md R60 to R69). -/

namespace Sys2Proof.Machine

/-- The tag-dispatch-multiplexer: the tag is compared as a whole byte, and any tag but the three updates no reading
(R65 to R68). -/
def dispatchTag (tag : Byte) (raw : BitVec 16) (s : State) : State :=
  if tag = Config.tagHum then s.setHum (humidityOf raw)
  else if tag = Config.tagTemp then s.setTmp raw
  else if tag = Config.tagCo2 then s.setCo2 raw
  else s

/-- ValidateAndApply (R62): the checksum first (R64), then the tag (R63). -/
def validateAndApply (s : State) : State :=
  if checksumOk s.buf then dispatchTag s.buf[0] (rawValue s.buf) (s.setFrameValid true)
  else s.setFrameValid false

/-- The decoder's part of STORE (R60): a bit in Accumulating, with validation when the cursor reaches 40 (R61); in
FrameComplete the bit is rejected (R69). -/
def storeBit (b : Bool) (s : State) : State :=
  if s.cursor.toNat < Config.frameBits then
    let s' := (s.writeBit s.cursor.toNat b).setCursor (s.cursor + 1#6)
    if s'.cursor.toNat = Config.frameBits then validateAndApply s' else s'
  else s

/-- STORE b (R60). -/
def execStore (b : Bool) (s : State) : Host.Outcome State Fault Refusal :=
  whenLegal s ((storeBit b s).respond 0x00000000#32 false)

end Sys2Proof.Machine
end

