-- ==== Sys2Proof/Machine/Dispatch.lean ====
section
/-! DEFINITION. exec: one arm per row of spec/opcode_table.json. -/

namespace Sys2Proof.Machine

def exec (i : Instr) (s : State) : Host.Outcome State Fault Refusal :=
  match i with
  | .store b => Sys2Proof.Machine.execStore b s
  | .freset => Sys2Proof.Machine.execFreset s
  | .readmore => Sys2Proof.Machine.execReadmore s
  | .isvalid => Sys2Proof.Machine.execIsvalid s
  | .getvalueHum => Sys2Proof.Machine.execGetvalueHum s
  | .getvalueTk => Sys2Proof.Machine.execGetvalueTk s
  | .getvalueTc => Sys2Proof.Machine.execGetvalueTc s
  | .getvalueCo2 => Sys2Proof.Machine.execGetvalueCo2 s
  | .getreadingHum => Sys2Proof.Machine.execGetreadingHum s
  | .getreadingTemp => Sys2Proof.Machine.execGetreadingTemp s
  | .getreadingCo2 => Sys2Proof.Machine.execGetreadingCo2 s

end Sys2Proof.Machine
end

