-- ==== Sys2Proof/Machine/Reserved.lean ====
section
/-! DEFINITION. The 244 reserved command words (spec 30_encoding.md R47): no row of the opcode table, so no constructor
of `Instr`, but the machine runs them. -/

namespace Sys2Proof.Machine

/-- RESERVED(w) (R47): accepted, no other state changes, the error bit set. -/
def execReserved (s : State) : Host.Outcome State Fault Refusal :=
  whenLegal s (s.respond 0x00000000#32 true)

end Sys2Proof.Machine
end

