-- ==== Sys2Proof/Machine/Accept.lean ====
section
/-! DEFINITION. Accepting a command word: one atomic step of the block (spec 30_encoding.md R40, R48; 00_scope.md R6). -/

namespace Sys2Proof.Machine

/-- The word on `cmd` is performed: a defined command by its rule, a reserved word by R47. -/
def accept (w : Byte) (s : State) : Host.Outcome State Fault Refusal :=
  match decode w with
  | .ok i => exec i s
  | .error _ => execReserved s

end Sys2Proof.Machine
end

