-- ==== Sys2Proof/Machine/Step.lean ====
section
/-! DEFINITION. One step of the machine: one rising edge of `clk` (spec 30_encoding.md R40). Nothing is fetched (10_state.md
R11): the word comes from the input ports, whose coming levels are the field `inputs` (log 1). -/

namespace Sys2Proof.Machine

/-- "At a rising edge of `clk`, `rst = 1` performs the construction reset. Otherwise, `cmd_valid = 1` accepts the command
word on `cmd` and performs its rule as one atomic step. Otherwise nothing changes" (R40, R141). -/
def step (s : State) : Host.Outcome State Fault Refusal :=
  match s.nextAction with
  | .construct => .next s.popInput.construct
  | .command w => accept w s.popInput
  | .idle => whenLegal s s.popInput

/-- The state in which the host offers, at the very next edge, the command word that a table word stands for. -/
def State.withFetchWord (s : State) (nbits w : Nat) : State := s.offer (tableWord nbits w)

end Sys2Proof.Machine
end

