-- ==== Sys2Proof/Machine/Run.lean ====
section
/-! DEFINITION. Sequences of commands: composition (spec 20_memory.md R38), the run and its observation
(70_reset_and_hazards.md R150) and the pseudo-commands, which expand to STOREs (30_encoding.md R50). -/

namespace Sys2Proof.Machine

/-- Commands performed one after another, each completely before the next (R38); a stop ends the sequence. -/
def issue : List Instr → State → Host.Outcome State Fault Refusal
  | [], s => .next s
  | i :: is, s =>
    match exec i s with
    | .next t => issue is t
    | .fault f => .fault f
    | .refused r => .refused r

/-- What is observed of a run: the responses of its commands and the final state (R150). -/
structure Observation where
  responses : List (Word × Bool)
  final : State
  deriving DecidableEq, Repr

/-- A run of accepted words from a state (R150: from `State.reset` for a run of the block). -/
def run : List Byte → State → Host.Outcome Observation Fault Refusal
  | [], s => .next ⟨[], s⟩
  | w :: ws, s =>
    match accept w s with
    | .next t =>
      match run ws t with
      | .next o => .next ⟨t.response :: o.responses, o.final⟩
      | .fault f => .fault f
      | .refused r => .refused r
    | .fault f => .fault f
    | .refused r => .refused r

/-- SENDBYTE x: eight STOREs, bit 7 first (R50). -/
def sendByte (x : Byte) : List Instr :=
  [.store (x.getLsbD 7), .store (x.getLsbD 6), .store (x.getLsbD 5), .store (x.getLsbD 4),
   .store (x.getLsbD 3), .store (x.getLsbD 2), .store (x.getLsbD 1), .store (x.getLsbD 0)]

/-- SENDFRAME b0, b1, b2, b3, b4: forty STOREs (R50). -/
def sendFrame (b0 b1 b2 b3 b4 : Byte) : List Instr :=
  sendByte b0 ++ sendByte b1 ++ sendByte b2 ++ sendByte b3 ++ sendByte b4

/-- SENDFRAMECK t, hi, lo, u: a frame with the correct checksum (R50). -/
def sendFrameCk (t hi lo u : Byte) : List Instr :=
  sendFrame t hi lo (checksum t hi lo) u

end Sys2Proof.Machine
end

