-- ==== Sys2Proof/Machine/Assembler.lean ====
section
/-! DEFINITION. The assembler syntax (spec 30_encoding.md R49) with the pseudo-commands (R50): text to command words. It is
no part of the block; it says which words a program text stands for. Texts are lists of characters. -/

namespace Sys2Proof.Machine

/-- One line of assembler text. -/
abbrev Text := List Char

/-- Why a line is no command. -/
inductive AsmError where
  | unknownMnemonic
  | badOperand
  | wrongOperandCount
  deriving DecidableEq, Repr

/-- The blanks that may stand between the parts of a line (log 6). -/
def isBlank (c : Char) : Bool := c == ' ' || c == '\t' || c == '\r'

/-- The text without blanks at its two ends. -/
def trimText (t : Text) : Text := ((t.dropWhile isBlank).reverse.dropWhile isBlank).reverse

/-- "`;` starting a comment", and "It is case-insensitive" (R49). -/
def cleanLine (t : Text) : Text := trimText ((t.takeWhile (· != ';')).map Char.toUpper)

/-- The pieces of a text between its commas. -/
def splitCommas : Text → List Text
  | [] => [[]]
  | c :: cs =>
    match splitCommas cs with
    | [] => [[c]]
    | w :: ws => if c = ',' then [] :: w :: ws else (c :: w) :: ws

/-- "optional operands separated by commas" (R49). -/
def operandsOf (t : Text) : List Text :=
  match t with
  | [] => []
  | c :: cs => (splitCommas (c :: cs)).map trimText

/-- The value of a decimal digit or of a capital hexadecimal one. -/
def digitValue (c : Char) : Option Nat :=
  if '0' ≤ c && c ≤ '9' then some (c.toNat - 48)
  else if 'A' ≤ c && c ≤ 'F' then some (c.toNat - 55)
  else none

/-- Digits read in a base, the most significant first, after the digits already worth `acc`. -/
def digitsValue (base : Nat) : Nat → Text → Option Nat
  | acc, [] => some acc
  | acc, c :: cs =>
    match digitValue c with
    | some d => if d < base then digitsValue base (acc * base + d) cs else none
    | none => none

/-- "Numbers are decimal or `0x` hex" (R49), in cleaned text. -/
def numberValue (t : Text) : Option Nat :=
  match t with
  | [] => none
  | ['0', 'X'] => none
  | '0' :: 'X' :: c :: cs => digitsValue 16 0 (c :: cs)
  | c :: cs => digitsValue 10 0 (c :: cs)

/-- A byte operand, 0..255 (R50). -/
def byteOperand (t : Text) : Except AsmError Byte :=
  match numberValue t with
  | some n => if n < 256 then .ok (BitVec.ofNat 8 n) else .error .badOperand
  | none => .error .badOperand

/-- Byte operands, in order. -/
def byteOperands : List Text → Except AsmError (List Byte)
  | [] => .ok []
  | t :: ts =>
    match byteOperand t with
    | .ok b =>
      match byteOperands ts with
      | .ok bs => .ok (b :: bs)
      | .error e => .error e
    | .error e => .error e

/-- The operand of STORE, 0 or 1 (R49). -/
def asmStore (ops : List Text) : Except AsmError (List Byte) :=
  match byteOperands ops with
  | .ok [b] =>
    if b = 0#8 then .ok [encode (.store false)] else if b = 1#8 then .ok [encode (.store true)] else .error .badOperand
  | .ok _ => .error .wrongOperandCount
  | .error e => .error e

/-- A command without operands. -/
def asmPlain (i : Instr) (ops : List Text) : Except AsmError (List Byte) :=
  match ops with
  | [] => .ok [encode i]
  | _ :: _ => .error .wrongOperandCount

/-- GETVALUE's operand (R49). -/
def asmGetvalue (ops : List Text) : Except AsmError (List Byte) :=
  match ops with
  | [t] =>
    if t = ['H', 'U', 'M'] then .ok [encode .getvalueHum]
    else if t = ['T', 'K'] then .ok [encode .getvalueTk]
    else if t = ['T', 'C'] then .ok [encode .getvalueTc]
    else if t = ['C', 'O', '2'] then .ok [encode .getvalueCo2]
    else .error .badOperand
  | _ => .error .wrongOperandCount

/-- GETREADING's operand (R49). -/
def asmGetreading (ops : List Text) : Except AsmError (List Byte) :=
  match ops with
  | [t] =>
    if t = ['H', 'U', 'M'] then .ok [encode .getreadingHum]
    else if t = ['T', 'E', 'M', 'P'] then .ok [encode .getreadingTemp]
    else if t = ['C', 'O', '2'] then .ok [encode .getreadingCo2]
    else .error .badOperand
  | _ => .error .wrongOperandCount

/-- `.CMD <byte>` "emits the raw command word, including reserved words" (R49). -/
def asmRaw (ops : List Text) : Except AsmError (List Byte) :=
  match byteOperands ops with
  | .ok [b] => .ok [b]
  | .ok _ => .error .wrongOperandCount
  | .error e => .error e

/-- SENDBYTE x (R50). -/
def asmSendByte (ops : List Text) : Except AsmError (List Byte) :=
  match byteOperands ops with
  | .ok [x] => .ok ((sendByte x).map encode)
  | .ok _ => .error .wrongOperandCount
  | .error e => .error e

/-- SENDFRAME b0, b1, b2, b3, b4 (R50). -/
def asmSendFrame (ops : List Text) : Except AsmError (List Byte) :=
  match byteOperands ops with
  | .ok [b0, b1, b2, b3, b4] => .ok ((sendFrame b0 b1 b2 b3 b4).map encode)
  | .ok _ => .error .wrongOperandCount
  | .error e => .error e

/-- SENDFRAMECK t, hi, lo, u (R50). -/
def asmSendFrameCk (ops : List Text) : Except AsmError (List Byte) :=
  match byteOperands ops with
  | .ok [t, hi, lo, u] => .ok ((sendFrameCk t hi lo u).map encode)
  | .ok _ => .error .wrongOperandCount
  | .error e => .error e

/-- The words of one mnemonic with its operands (R49, R50). -/
def asmCommand (m : Text) (ops : List Text) : Except AsmError (List Byte) :=
  if m = ['S', 'T', 'O', 'R', 'E'] then asmStore ops
  else if m = ['F', 'R', 'E', 'S', 'E', 'T'] then asmPlain .freset ops
  else if m = ['R', 'E', 'A', 'D', 'M', 'O', 'R', 'E'] then asmPlain .readmore ops
  else if m = ['I', 'S', 'V', 'A', 'L', 'I', 'D'] then asmPlain .isvalid ops
  else if m = ['G', 'E', 'T', 'V', 'A', 'L', 'U', 'E'] then asmGetvalue ops
  else if m = ['G', 'E', 'T', 'R', 'E', 'A', 'D', 'I', 'N', 'G'] then asmGetreading ops
  else if m = ['.', 'C', 'M', 'D'] then asmRaw ops
  else if m = ['S', 'E', 'N', 'D', 'B', 'Y', 'T', 'E'] then asmSendByte ops
  else if m = ['S', 'E', 'N', 'D', 'F', 'R', 'A', 'M', 'E'] then asmSendFrame ops
  else if m = ['S', 'E', 'N', 'D', 'F', 'R', 'A', 'M', 'E', 'C', 'K'] then asmSendFrameCk ops
  else .error .unknownMnemonic

/-- The words of a cleaned line: nothing for an empty one, else the mnemonic up to the first blank and its operands. -/
def asmClean (t : Text) : Except AsmError (List Byte) :=
  match t with
  | [] => .ok []
  | c :: cs =>
    asmCommand ((c :: cs).takeWhile fun c => !isBlank c)
      (operandsOf (trimText ((c :: cs).dropWhile fun c => !isBlank c)))

/-- The words of one line: "one command per line" (R49). -/
def assembleLine (t : Text) : Except AsmError (List Byte) := asmClean (cleanLine t)

/-- The words of a program text, line by line; the first bad line is the answer. -/
def assemble : List Text → Except AsmError (List Byte)
  | [] => .ok []
  | l :: ls =>
    match assembleLine l with
    | .ok ws =>
      match assemble ls with
      | .ok vs => .ok (ws ++ vs)
      | .error e => .error e
    | .error e => .error e

/-- The syntax of a command as R49 writes it. -/
def asmText (i : Instr) : Text :=
  match i with
  | .store false => ['S', 'T', 'O', 'R', 'E', ' ', '0']
  | .store true => ['S', 'T', 'O', 'R', 'E', ' ', '1']
  | .freset => ['F', 'R', 'E', 'S', 'E', 'T']
  | .readmore => ['R', 'E', 'A', 'D', 'M', 'O', 'R', 'E']
  | .isvalid => ['I', 'S', 'V', 'A', 'L', 'I', 'D']
  | .getvalueHum => ['G', 'E', 'T', 'V', 'A', 'L', 'U', 'E', ' ', 'H', 'U', 'M']
  | .getvalueTk => ['G', 'E', 'T', 'V', 'A', 'L', 'U', 'E', ' ', 'T', 'K']
  | .getvalueTc => ['G', 'E', 'T', 'V', 'A', 'L', 'U', 'E', ' ', 'T', 'C']
  | .getvalueCo2 => ['G', 'E', 'T', 'V', 'A', 'L', 'U', 'E', ' ', 'C', 'O', '2']
  | .getreadingHum => ['G', 'E', 'T', 'R', 'E', 'A', 'D', 'I', 'N', 'G', ' ', 'H', 'U', 'M']
  | .getreadingTemp => ['G', 'E', 'T', 'R', 'E', 'A', 'D', 'I', 'N', 'G', ' ', 'T', 'E', 'M', 'P']
  | .getreadingCo2 => ['G', 'E', 'T', 'R', 'E', 'A', 'D', 'I', 'N', 'G', ' ', 'C', 'O', '2']

end Sys2Proof.Machine
end

