-- ==== Sys2Proof/Safety.lean ====
section
/-! DEFINITION. What claims about safe runs say: the invariants of the reachable states (spec 10_state.md section 6) and
which commands are queries (20_memory.md R37), and what a whole frame leaves (40_store.md). -/

namespace Sys2Proof.Machine

/-- R22: a reading whose valid bit is 0 has its value register equal to 0. -/
abbrev State.invalidReadsZero (s : State) : Prop :=
  (s.humValid = false → s.humQ = 0#10) ∧ (s.tmpValid = false → s.tmpRaw = 0#16) ∧
    (s.co2Valid = false → s.co2Raw = 0#16)

/-- R15: the humidity quotient is at most 655. -/
abbrev State.humBounded (s : State) : Prop := s.humQ.toNat ≤ 655

/-- R27: every buffer position at or after the cursor holds 0. -/
abbrev State.tailZero (s : State) : Prop :=
  ∀ k, k < 40 → s.cursor.toNat ≤ k → bufBit s.buf k = false

/-- The invariant of the reachable states: R21, R22, R15 and R27 together. -/
abbrev State.Inv (s : State) : Prop :=
  s.cursorLegal ∧ s.invalidReadsZero ∧ s.humBounded ∧ s.tailZero

/-- The commands that have "no side effect on decoder state" (R37): READMORE, ISVALID, GETVALUE, GETREADING. -/
def isQuery (i : Instr) : Bool :=
  match i with
  | .store _ => false
  | .freset => false
  | .readmore => true
  | .isvalid => true
  | .getvalueHum => true
  | .getvalueTk => true
  | .getvalueTc => true
  | .getvalueCo2 => true
  | .getreadingHum => true
  | .getreadingTemp => true
  | .getreadingCo2 => true

/-- The value readout commands GETVALUE and GETREADING (R100). -/
def isReadout (i : Instr) : Bool :=
  match i with
  | .store _ => false
  | .freset => false
  | .readmore => false
  | .isvalid => false
  | .getvalueHum => true
  | .getvalueTk => true
  | .getvalueTc => true
  | .getvalueCo2 => true
  | .getreadingHum => true
  | .getreadingTemp => true
  | .getreadingCo2 => true

/-- Two states hold the same three readings. -/
abbrev State.sameReadings (s t : State) : Prop :=
  s.humValid = t.humValid ∧ s.humQ = t.humQ ∧ s.tmpValid = t.tmpValid ∧ s.tmpRaw = t.tmpRaw ∧
    s.co2Valid = t.co2Valid ∧ s.co2Raw = t.co2Raw

/-- What a whole frame `b0 .. b4`, delivered after the state `s`, leaves in `t` (R62 to R68, R71): the buffer holds the
bytes sent, `frame_valid` is the checksum's result, and a reading changes only under a matching checksum and its own tag. -/
abbrev State.frameDecoded (s t : State) (b0 b1 b2 b3 b4 : Byte) : Prop :=
  t.buf = #v[b0, b1, b2, b3, b4] ∧ t.cursor = 40#6 ∧ t.response = (0x00000000#32, false) ∧
  t.celsiusArith = s.celsiusArith ∧ t.inputs = s.inputs ∧
  (b3.toNat ≠ (b0.toNat + b1.toNat + b2.toNat) % 256 → t.frameValid = false ∧ s.sameReadings t) ∧
  (b3.toNat = (b0.toNat + b1.toNat + b2.toNat) % 256 → t.frameValid = true ∧
    (t.humValid, t.humQ) = (if b0 = 0x41#8
      then (true, BitVec.ofNat 10 ((b1.toNat * 256 + b2.toNat) / 100)) else (s.humValid, s.humQ)) ∧
    (t.tmpValid, t.tmpRaw) = (if b0 = 0x42#8
      then (true, BitVec.ofNat 16 (b1.toNat * 256 + b2.toNat)) else (s.tmpValid, s.tmpRaw)) ∧
    (t.co2Valid, t.co2Raw) = (if b0 = 0x50#8
      then (true, BitVec.ofNat 16 (b1.toNat * 256 + b2.toNat)) else (s.co2Valid, s.co2Raw)))

end Sys2Proof.Machine
end

