-- ==== Sys2Proof/Certificates/Slice0/Obligations.lean ====
section
/-! DEFINITION. The statements about the machine, each from a numbered rule or a section of the spec. A statement whose
sentence the spec marks "[derived: ...]" says so and has the basis 'derived'. -/

open Sys2Proof Sys2Proof.Machine

/-! ### STORE, completion, validation, dispatch -/

/-- R31: `BufWriteBit(k, b)` sets or clears byte `k div 8`, bit `7 - (k mod 8)`, and "Every other bit of the buffer is
unchanged". -/
def Obligations.BufWriteBitSetsOneBitOnly : Prop :=
  ∀ (buf : FrameBuf) (k : Nat) (b : Bool), k < 40 → ∀ (i : Fin 5) (j : Fin 8),
    (bufWriteBit buf k b)[i].getLsbD j =
      if i.val = k / 8 ∧ j.val = 7 - k % 8 then b else buf[i].getLsbD j

/-- 40_store.md section 1: a STORE with the cursor below 39 puts its bit at position `cursor`, advances the cursor by one,
answers (0, 0) and changes nothing else. -/
def Obligations.StoreFillsTheNextPosition : Prop :=
  ∀ (b : Bool) (s : State), s.cursor.toNat < 39 →
    ∃ t, exec (.store b) s = .next t ∧
      t.cursor.toNat = s.cursor.toNat + 1 ∧
      (∀ k, k < 40 → bufBit t.buf k = if k = s.cursor.toNat then b else bufBit s.buf k) ∧
      t = { s with cursor := t.cursor, buf := t.buf, rspData := 0x00000000#32, rspErr := false }

/-- R64: a completing STORE whose frame fails the checksum clears `frame_valid` and leaves all six reading registers. -/
def Obligations.MismatchedFrameTouchesNoReading : Prop :=
  ∀ (b : Bool) (s : State), s.cursor.toNat = 39 →
    s.buf[3].toNat ≠ (s.buf[0].toNat + s.buf[1].toNat + s.buf[2].toNat) % 256 →
    exec (.store b) s = .next { s with
      cursor := 40#6, buf := bufWriteBit s.buf 39 b, frameValid := false,
      rspData := 0x00000000#32, rspErr := false }

/-- R65: with a matching checksum and tag 0x41, `hum_q` is the truncated quotient and nothing of the other readings
changes. -/
def Obligations.HumidityFrameStoresTruncatedQuotient : Prop :=
  ∀ (b : Bool) (s : State), s.cursor.toNat = 39 →
    s.buf[3].toNat = (s.buf[0].toNat + s.buf[1].toNat + s.buf[2].toNat) % 256 →
    s.buf[0] = 0x41#8 →
    (s.buf[1].toNat * 256 + s.buf[2].toNat) / 100 ≤ 655 ∧
    exec (.store b) s = .next { s with
      cursor := 40#6, buf := bufWriteBit s.buf 39 b, frameValid := true,
      humValid := true, humQ := BitVec.ofNat 10 ((s.buf[1].toNat * 256 + s.buf[2].toNat) / 100),
      rspData := 0x00000000#32, rspErr := false }

/-- R66: with a matching checksum and tag 0x42, `tmp_raw` is the raw value and nothing of the other readings changes. -/
def Obligations.TemperatureFrameStoresRawValue : Prop :=
  ∀ (b : Bool) (s : State), s.cursor.toNat = 39 →
    s.buf[3].toNat = (s.buf[0].toNat + s.buf[1].toNat + s.buf[2].toNat) % 256 →
    s.buf[0] = 0x42#8 →
    exec (.store b) s = .next { s with
      cursor := 40#6, buf := bufWriteBit s.buf 39 b, frameValid := true,
      tmpValid := true, tmpRaw := BitVec.ofNat 16 (s.buf[1].toNat * 256 + s.buf[2].toNat),
      rspData := 0x00000000#32, rspErr := false }

/-- R67: with a matching checksum and tag 0x50, `co2_raw` is the raw value and nothing of the other readings changes. -/
def Obligations.Co2FrameStoresRawValue : Prop :=
  ∀ (b : Bool) (s : State), s.cursor.toNat = 39 →
    s.buf[3].toNat = (s.buf[0].toNat + s.buf[1].toNat + s.buf[2].toNat) % 256 →
    s.buf[0] = 0x50#8 →
    exec (.store b) s = .next { s with
      cursor := 40#6, buf := bufWriteBit s.buf 39 b, frameValid := true,
      co2Valid := true, co2Raw := BitVec.ofNat 16 (s.buf[1].toNat * 256 + s.buf[2].toNat),
      rspData := 0x00000000#32, rspErr := false }

/-- R68 (with R63's flag): with a matching checksum and any other tag, compared as a whole byte, no reading register changes
and `frame_valid` is 1. -/
def Obligations.UnrecognizedTagUpdatesNoReading : Prop :=
  ∀ (b : Bool) (s : State), s.cursor.toNat = 39 →
    s.buf[3].toNat = (s.buf[0].toNat + s.buf[1].toNat + s.buf[2].toNat) % 256 →
    s.buf[0] ≠ 0x41#8 → s.buf[0] ≠ 0x42#8 → s.buf[0] ≠ 0x50#8 →
    exec (.store b) s = .next { s with
      cursor := 40#6, buf := bufWriteBit s.buf 39 b, frameValid := true,
      rspData := 0x00000000#32, rspErr := false }

/-- R69: "A STORE accepted with `cursor = 40` changes no decoder state", and no error is signalled. -/
def Obligations.StoreInFrameCompleteIsRejected : Prop :=
  ∀ (b : Bool) (s : State), s.cursor.toNat = 40 →
    exec (.store b) s = .next { s with rspData := 0x00000000#32, rspErr := false }

/-- Access table of 10_state.md section 7, for STORE: outside a completion no flag and no reading changes, only the position
at the cursor may change in the buffer, none of it in FrameComplete, and the parameter and the host's schedule stay. -/
def Obligations.StoreFrame : Prop :=
  ∀ (b : Bool) (s t : State), exec (.store b) s = .next t →
    t.rspData = 0x00000000#32 ∧ t.rspErr = false ∧
    t.celsiusArith = s.celsiusArith ∧ t.inputs = s.inputs ∧
    (∀ k, k < 40 → k ≠ s.cursor.toNat → bufBit t.buf k = bufBit s.buf k) ∧
    (s.cursor.toNat = 40 → t.buf = s.buf ∧ t.cursor = s.cursor) ∧
    (s.cursor.toNat ≠ 39 → t.frameValid = s.frameValid ∧ s.sameReadings t)

/-- R23: a frame updates at most one reading, the one its tag selects, and a reading is overwritten "only when its tag
appears in a frame with a valid checksum"; no other command touches a reading. -/
def Obligations.EachReadingNeedsItsOwnValidFrame : Prop :=
  ∀ (i : Instr) (s t : State), exec i s = .next t →
    ((t.humValid, t.humQ) ≠ (s.humValid, s.humQ) →
      (∃ b, i = .store b) ∧ s.cursor.toNat = 39 ∧ s.buf[0] = 0x41#8 ∧
        s.buf[3].toNat = (s.buf[0].toNat + s.buf[1].toNat + s.buf[2].toNat) % 256) ∧
    ((t.tmpValid, t.tmpRaw) ≠ (s.tmpValid, s.tmpRaw) →
      (∃ b, i = .store b) ∧ s.cursor.toNat = 39 ∧ s.buf[0] = 0x42#8 ∧
        s.buf[3].toNat = (s.buf[0].toNat + s.buf[1].toNat + s.buf[2].toNat) % 256) ∧
    ((t.co2Valid, t.co2Raw) ≠ (s.co2Valid, s.co2Raw) →
      (∃ b, i = .store b) ∧ s.cursor.toNat = 39 ∧ s.buf[0] = 0x50#8 ∧
        s.buf[3].toNat = (s.buf[0].toNat + s.buf[1].toNat + s.buf[2].toNat) % 256)

/-- 10_state.md section 3: of the commands, "Only the frame-completing STORE writes" `frame_valid`. -/
def Obligations.OnlyCompletingStoreWritesFrameValid : Prop :=
  ∀ (i : Instr) (s t : State), exec i s = .next t → t.frameValid ≠ s.frameValid →
    (∃ b, i = .store b) ∧ s.cursor.toNat = 39 ∧ t.cursor.toNat = 40

/-- 40_store.md section 5, R70 [derived: from rules R62 and R65 to R67]: the sum needs no wrap before the final mod 256, so
the checksum is wrapping byte addition in any order; the raw value is unsigned and big-endian (20_memory.md section 3);
the humidity quotient fits its register. -/
def Obligations.ValidatorArithmeticLaws : Prop :=
  (∀ a b c : Byte, checksum a b c = a + b + c ∧ checksum a b c = checksum c a b ∧
    checksum a b c = checksum b a c) ∧
  (∀ buf : FrameBuf, (rawValue buf).toNat = buf[1].toNat * 256 + buf[2].toNat) ∧
  (∀ raw : BitVec 16, (humidityOf raw).toNat = raw.toNat / 100 ∧ (humidityOf raw).toNat ≤ 655)

/-- 30_encoding.md section 5 (the wire frame format): `F[39 - n]` is byte `n div 8`, bit `7 - (n mod 8)`, and the fields TAG,
VAL_HI, VAL_LO, CKS and UNUSED are F[39:32], F[31:24], F[23:16], F[15:8] and F[7:0]. -/
def Obligations.WireFrameLayout : Prop :=
  ∀ buf : FrameBuf,
    (∀ n, n < 40 → (frameWord buf).getLsbD (39 - n) = bufBit buf n) ∧
    (frameWord buf).extractLsb' 32 8 = buf[0] ∧ (frameWord buf).extractLsb' 24 8 = buf[1] ∧
    (frameWord buf).extractLsb' 16 8 = buf[2] ∧ (frameWord buf).extractLsb' 8 8 = buf[3] ∧
    (frameWord buf).extractLsb' 0 8 = buf[4] ∧ (frameWord buf).extractLsb' 16 16 = rawValue buf

/-- 10_state.md section 5, R18 [derived]: the transitions of the state machine, with FrameComplete left only by FRESET. -/
def Obligations.PhaseTransitions : Prop :=
  ∀ (i : Instr) (s t : State), exec i s = .next t →
    match i with
    | .store _ =>
      (s.cursor.toNat ≤ 38 → phase t = .accumulating (s.cursor.toNat + 1)) ∧
      (s.cursor.toNat = 39 → phase t = .frameComplete) ∧
      (s.cursor.toNat = 40 → phase t = .frameComplete)
    | .freset => phase t = .accumulating 0
    | _ => phase t = phase s

/-! ### FRESET and the status commands -/

/-- R110: FRESET, encoded 0x10, clears the buffer and the cursor in every phase and leaves the flag and the readings. -/
def Obligations.FresetClearsBufferAndCursorOnly : Prop :=
  decode 0x10#8 = .ok .freset ∧
  ∀ s : State, s.cursorLegal →
    exec .freset s = .next { s with
      buf := #v[0x00#8, 0x00#8, 0x00#8, 0x00#8, 0x00#8], cursor := 0#6,
      rspData := 0x00000000#32, rspErr := false }

/-- R80: READMORE, encoded 0x20, answers 1 for the cursor values 0..39 and 0 at 40, and changes no decoder state. -/
def Obligations.ReadmoreReportsCursorBelowForty : Prop :=
  decode 0x20#8 = .ok .readmore ∧
  ∀ s : State,
    (s.cursor.toNat ≤ 39 →
      exec .readmore s = .next { s with rspData := 0x00000001#32, rspErr := false }) ∧
    (s.cursor.toNat = 40 →
      exec .readmore s = .next { s with rspData := 0x00000000#32, rspErr := false })

/-- R81: ISVALID, encoded 0x30, answers the flag of the last completed frame and changes no decoder state. -/
def Obligations.IsvalidReportsFrameValid : Prop :=
  decode 0x30#8 = .ok .isvalid ∧
  ∀ s : State, s.cursorLegal →
    exec .isvalid s = .next { s with
      rspData := if s.frameValid then 0x00000001#32 else 0x00000000#32, rspErr := false }

/-! ### GETVALUE and GETREADING -/

/-- R90: GETVALUE HUM, encoded 0x40, answers the binary32 word of the quotient, or the sentinel. -/
def Obligations.GetvalueHumidityWord : Prop :=
  decode 0x40#8 = .ok .getvalueHum ∧
  (∀ s : State, s.cursorLegal → s.humValid = true →
    exec .getvalueHum s = .next { s with
      rspData := bits32 (f32 ⟨s.humQ.toNat, 1⟩), rspErr := false }) ∧
  (∀ s : State, s.cursorLegal → s.humValid = false →
    exec .getvalueHum s = .next { s with rspData := 0x00000000#32, rspErr := false })

/-- R91: GETVALUE TK, encoded 0x41, answers the binary32 word of raw/16, or the sentinel. -/
def Obligations.GetvalueKelvinWord : Prop :=
  decode 0x41#8 = .ok .getvalueTk ∧
  (∀ s : State, s.cursorLegal → s.tmpValid = true →
    exec .getvalueTk s = .next { s with
      rspData := bits32 (f32 ⟨s.tmpRaw.toNat, 16⟩), rspErr := false }) ∧
  (∀ s : State, s.cursorLegal → s.tmpValid = false →
    exec .getvalueTk s = .next { s with rspData := 0x00000000#32, rspErr := false })

/-- R92: GETVALUE TC, encoded 0x42, answers the Celsius word under the parameter in force, or the sentinel where the Kelvin
reading is not valid; raw 0 gives 0xC3889333 in both modes, and a valid reading never gives 0x00000000. -/
def Obligations.GetvalueCelsiusWord : Prop :=
  decode 0x42#8 = .ok .getvalueTc ∧
  (∀ s : State, s.cursorLegal → s.tmpValid = true →
    exec .getvalueTc s = .next { s with
      rspData := bits32 (celsius s.celsiusArith s.tmpRaw), rspErr := false }) ∧
  (∀ s : State, s.cursorLegal → s.tmpValid = false →
    exec .getvalueTc s = .next { s with rspData := 0x00000000#32, rspErr := false }) ∧
  (∀ m, bits32 (celsius m 0#16) = 0xC3889333#32) ∧
  (∀ m raw, bits32 (celsius m raw) ≠ 0x00000000#32)

/-- R93: GETVALUE CO2, encoded 0x43, answers the binary32 word of the raw value, or the sentinel. -/
def Obligations.GetvalueCo2Word : Prop :=
  decode 0x43#8 = .ok .getvalueCo2 ∧
  (∀ s : State, s.cursorLegal → s.co2Valid = true →
    exec .getvalueCo2 s = .next { s with
      rspData := bits32 (f32 ⟨s.co2Raw.toNat, 1⟩), rspErr := false }) ∧
  (∀ s : State, s.cursorLegal → s.co2Valid = false →
    exec .getvalueCo2 s = .next { s with rspData := 0x00000000#32, rspErr := false })

/-- R96: GETREADING HUM, encoded 0x50: bit 16 is the valid bit, bits 15:0 are `hum_q`. -/
def Obligations.GetreadingHumidityWord : Prop :=
  decode 0x50#8 = .ok .getreadingHum ∧
  ∀ s : State, s.cursorLegal →
    exec .getreadingHum s = .next { s with
      rspData := BitVec.ofNat 32 (s.humValid.toNat * 65536 + s.humQ.toNat), rspErr := false }

/-- R97: GETREADING TEMP, encoded 0x51: bit 16 is the valid bit, bits 15:0 are `tmp_raw`; CELSIUS_ARITH plays no part. -/
def Obligations.GetreadingTemperatureWord : Prop :=
  decode 0x51#8 = .ok .getreadingTemp ∧
  ∀ s : State, s.cursorLegal →
    exec .getreadingTemp s = .next { s with
      rspData := BitVec.ofNat 32 (s.tmpValid.toNat * 65536 + s.tmpRaw.toNat), rspErr := false }

/-- R98: GETREADING CO2, encoded 0x52: bit 16 is the valid bit, bits 15:0 are `co2_raw`. -/
def Obligations.GetreadingCo2Word : Prop :=
  decode 0x52#8 = .ok .getreadingCo2 ∧
  ∀ s : State, s.cursorLegal →
    exec .getreadingCo2 s = .next { s with
      rspData := BitVec.ofNat 32 (s.co2Valid.toNat * 65536 + s.co2Raw.toNat), rspErr := false }

/-- 20_memory.md section 5, R37 [derived]: a query writes only the response register, and issuing it twice in a row gives
the same state and response as once. -/
def Obligations.QueriesWriteOnlyTheResponse : Prop :=
  ∀ (i : Instr) (s t : State), isQuery i = true → exec i s = .next t →
    t = { s with rspData := t.rspData, rspErr := false } ∧ exec i t = .next t

/-- 42_readout.md section 4, R100 [derived]: a readout depends on the readings (and the parameter) alone, not on the frame in
progress, the flag or an earlier response. -/
def Obligations.ReadoutDependsOnReadingsAlone : Prop :=
  ∀ (i : Instr) (s s' t t' : State), isReadout i = true → s.sameReadings s' →
    s.celsiusArith = s'.celsiusArith → exec i s = .next t → exec i s' = .next t' →
    t.response = t'.response

/-- 10_state.md section 7, R25: the buffer and the exact cursor below 40 are hidden. Of two states that differ only there
(and in the old response and the host's schedule), every query gives the same answer. -/
def Obligations.BufferAndCursorAreHiddenFromQueries : Prop :=
  ∀ (i : Instr) (s s' t t' : State), isQuery i = true → s.sameReadings s' →
    s.frameValid = s'.frameValid → (s.cursor.toNat < 40 ↔ s'.cursor.toNat < 40) →
    s.celsiusArith = s'.celsiusArith → exec i s = .next t → exec i s' = .next t' →
    t.response = t'.response

/-- 42_readout.md section 4, R99 [derived]: for a valid reading GETVALUE answers 0x00000000 exactly for humidity quotient 0
(raw 0..99), Kelvin raw 0 and CO2 raw 0, and never for Celsius; GETREADING of a valid reading never does. -/
def Obligations.SentinelAmbiguity : Prop :=
  ∀ s t : State,
    (exec .getvalueHum s = .next t → s.humValid = true → (t.rspData = 0#32 ↔ s.humQ = 0#10)) ∧
    (exec .getvalueTk s = .next t → s.tmpValid = true → (t.rspData = 0#32 ↔ s.tmpRaw = 0#16)) ∧
    (exec .getvalueTc s = .next t → s.tmpValid = true → t.rspData ≠ 0#32) ∧
    (exec .getvalueCo2 s = .next t → s.co2Valid = true → (t.rspData = 0#32 ↔ s.co2Raw = 0#16)) ∧
    (exec .getreadingHum s = .next t → s.humValid = true → t.rspData ≠ 0#32) ∧
    (exec .getreadingTemp s = .next t → s.tmpValid = true → t.rspData ≠ 0#32) ∧
    (exec .getreadingCo2 s = .next t → s.co2Valid = true → t.rspData ≠ 0#32)

/-- 70_reset_and_hazards.md section 2, R142 [derived]: until a valid frame arrives, every GETVALUE and every GETREADING
returns 0x00000000. -/
def Obligations.ReadoutsAreZeroWithoutAValidFrame : Prop :=
  ∀ (i : Instr) (s : State), isReadout i = true → s.cursorLegal → s.invalidReadsZero →
    s.humValid = false → s.tmpValid = false → s.co2Valid = false →
    exec i s = .next { s with rspData := 0x00000000#32, rspErr := false }

/-! ### binary32 and the Celsius arithmetic -/

/-- 00_scope.md section 5 (`bits32`): the word is sign, exponent, fraction from bit 31 down, and no two data share a
word. -/
def Obligations.Binary32WordLayout : Prop :=
  (∀ x : Binary32, (bits32 x).getLsbD 31 = x.sign ∧ (bits32 x).extractLsb' 23 8 = x.exponent ∧
    (bits32 x).extractLsb' 0 23 = x.fraction) ∧
  (∀ w : Word, bits32 (ofBits32 w) = w)

/-- 00_scope.md section 5: "`f32(q)` rounds the exact rational `q` to the nearest IEEE 754 binary32 value, ties to even".
For every fraction of magnitude below `2 ^ 128 - 2 ^ 103`, half a spacing above the largest finite binary32, the result
is finite, no finite binary32 datum is nearer, and one of another value that is as near leaves the chosen fraction even.
The range of binary32 is from general knowledge (log 7, PRESUMED). -/
def Obligations.F32RoundsToNearestTiesToEven : Prop :=
  ∀ q : Frac, 0 < q.den → |q.toRat| < 2 ^ 128 - 2 ^ 103 →
    isFinite32 (f32 q) = true ∧
    ∀ y : Binary32, isFinite32 y = true →
      |(exact32 (f32 q)).toRat - q.toRat| ≤ |(exact32 y).toRat - q.toRat| ∧
      ((exact32 y).toRat ≠ (exact32 (f32 q)).toRat →
        |(exact32 (f32 q)).toRat - q.toRat| = |(exact32 y).toRat - q.toRat| →
        (f32 q).fraction.getLsbD 0 = false)

/-- 42_readout.md section 1, R94 [derived]: GETVALUE of a valid humidity, Kelvin or CO2 reading is exact; its word, read as a
binary32, has the reading's abstract value (R20). -/
def Obligations.GetvalueIsExact : Prop :=
  ∀ s t : State,
    (exec .getvalueHum s = .next t → s.humValid = true →
      (exact32 (ofBits32 t.rspData)).toRat = humValue s) ∧
    (exec .getvalueTk s = .next t → s.tmpValid = true →
      (exact32 (ofBits32 t.rspData)).toRat = tmpValue s) ∧
    (exec .getvalueCo2 s = .next t → s.co2Valid = true →
      (exact32 (ofBits32 t.rspData)).toRat = co2Value s)

/-- 42_readout.md section 1, R94 [derived]: "No GETVALUE result is ever −0.0, infinite, NaN or subnormal". -/
def Obligations.GetvalueIsNeverSpecial : Prop :=
  ∀ (i : Instr) (s t : State),
    i = .getvalueHum ∨ i = .getvalueTk ∨ i = .getvalueTc ∨ i = .getvalueCo2 →
    exec i s = .next t →
    isFinite32 (ofBits32 t.rspData) = true ∧
      ((ofBits32 t.rspData).exponent = 0#8 → t.rspData = 0x00000000#32)

/-- 42_readout.md section 1, R95 [derived: from the definition of f32]: C273 = f32(273.15) = 0x43889333 = 8950579/32768. -/
def Obligations.KelvinConstantC273 : Prop :=
  bits32 (f32 ⟨27315, 100⟩) = 0x43889333#32 ∧ c273.toRat = 8950579 / 32768

/-- 42_readout.md section 1, R95: B32_TWO_STEP rounds raw/16 − C273 and EXACT_RNE rounds raw/16 − 27315/100, each of them once,
however the exact difference is written as a fraction. -/
def Obligations.CelsiusRoundsTheExactDifferenceOnce : Prop :=
  ∀ (raw : BitVec 16) (q : Frac), 0 < q.den →
    (q.toRat = (raw.toNat : ℚ) / 16 - 8950579 / 32768 → celsius .b32TwoStep raw = f32 q) ∧
    (q.toRat = (raw.toNat : ℚ) / 16 - 27315 / 100 → celsius .exactRne raw = f32 q)

/-- 42_readout.md section 1, R95 [derived: computed exhaustively]: the two modes give the same word except for the raw values
2323..6418. -/
def Obligations.CelsiusModesDifferExactlyInBand : Prop :=
  ∀ raw : BitVec 16,
    bits32 (celsius .b32TwoStep raw) = bits32 (celsius .exactRne raw) ↔
      ¬(2323 ≤ raw.toNat ∧ raw.toNat ≤ 6418)

/-- 42_readout.md section 1, R95 [derived]: "Neither mode ever returns ±0.0", nor a subnormal. -/
def Obligations.CelsiusIsNeverZero : Prop :=
  ∀ (m : CelsiusArith) (raw : BitVec 16), (celsius m raw).exponent ≠ 0#8

/-! ### Encoding -/

/-- R41: the opcode map, its twelve words one by one; "Every word not listed is reserved". -/
def Obligations.OpcodeMapDecodes : Prop :=
  decode 0x00#8 = .ok (.store false) ∧ decode 0x01#8 = .ok (.store true) ∧
  decode 0x10#8 = .ok .freset ∧ decode 0x20#8 = .ok .readmore ∧ decode 0x30#8 = .ok .isvalid ∧
  decode 0x40#8 = .ok .getvalueHum ∧ decode 0x41#8 = .ok .getvalueTk ∧
  decode 0x42#8 = .ok .getvalueTc ∧ decode 0x43#8 = .ok .getvalueCo2 ∧
  decode 0x50#8 = .ok .getreadingHum ∧ decode 0x51#8 = .ok .getreadingTemp ∧
  decode 0x52#8 = .ok .getreadingCo2 ∧
  ∀ w : Byte, w ∉ [0x00#8, 0x01#8, 0x10#8, 0x20#8, 0x30#8, 0x40#8, 0x41#8, 0x42#8, 0x43#8, 0x50#8,
    0x51#8, 0x52#8] → ∃ e, decode w = .error e

/-- 30_encoding.md sections 2, 3 and 6: decoding and encoding agree in both directions. A word decodes to a command exactly
when it is that command's word, and it is refused exactly when it is one of the reserved words, which no command has. -/
def Obligations.DecodeInvertsEncode : Prop :=
  (∀ (w : Byte) (i : Instr), decode w = .ok i ↔ i.wellFormed = true ∧ encode i = w) ∧
  (∀ w : Byte, (∃ e, decode w = .error e) ↔ wordReserved w = true) ∧
  (∀ w : Byte, wordReserved w = true ↔ ∀ i : Instr, encode i ≠ w)

/-- R50: SENDBYTE's eight words, the 40 words of SENDFRAME and SENDFRAMECK's checksum byte. -/
def Obligations.PseudoCommandsExpandToStores : Prop :=
  (∀ x : Byte, (sendByte x).map encode =
    [7, 6, 5, 4, 3, 2, 1, 0].map fun j => if x.getLsbD j then 0x01#8 else 0x00#8) ∧
  (∀ b0 b1 b2 b3 b4 : Byte, sendFrame b0 b1 b2 b3 b4 =
    sendByte b0 ++ (sendByte b1 ++ (sendByte b2 ++ (sendByte b3 ++ sendByte b4))) ∧
    (sendFrame b0 b1 b2 b3 b4).length = 40) ∧
  (∀ t hi lo u : Byte, sendFrameCk t hi lo u =
    sendFrame t hi lo (BitVec.ofNat 8 ((t.toNat + hi.toNat + lo.toNat) % 256)) u)

/-- 30_encoding.md section 7: the assembler turns the written form of each command into that command's word, and `.CMD`
with the number 0xFF, in either case, into the word 0xFF. -/
def Obligations.AssemblerEmitsTheCommandWord : Prop :=
  (∀ i : Instr, assembleLine (asmText i) = .ok [encode i]) ∧
  assembleLine ['.', 'c', 'm', 'd', ' ', '0', 'x', 'f', 'F'] = .ok [0xFF#8]

/-! ### The step, reset and the whole machine -/

/-- 30_encoding.md section 1: a step at an edge with `rst = 0` and a defined word offered is `exec` of the decoded command
on the state with that edge taken off the schedule; `withFetchWord` offers exactly that word. -/
def Obligations.StepRunsTheDecodedCommand : Prop :=
  (∀ (s : State) (w : Byte) (rest : List EdgeInput) (i : Instr),
    s.inputs = ⟨false, true, w⟩ :: rest → decode w = .ok i →
    step s = exec i { s with inputs := rest }) ∧
  (∀ (s : State) (w : Byte) (i : Instr), decode w = .ok i →
    step (s.withFetchWord 8 w.toNat) = exec i s)

/-- R47: the 244 reserved words, range by range, are accepted, change no decoder state and answer (0, 1). -/
def Obligations.ReservedWordAnswersError : Prop :=
  ∀ (s : State) (w : Byte) (rest : List EdgeInput), s.cursorLegal →
    s.inputs = ⟨false, true, w⟩ :: rest →
    (0x02 ≤ w.toNat ∧ w.toNat ≤ 0x0F) ∨ (0x11 ≤ w.toNat ∧ w.toNat ≤ 0x1F) ∨
      (0x21 ≤ w.toNat ∧ w.toNat ≤ 0x2F) ∨ (0x31 ≤ w.toNat ∧ w.toNat ≤ 0x3F) ∨
      (0x44 ≤ w.toNat ∧ w.toNat ≤ 0x4F) ∨ (0x53 ≤ w.toNat ∧ w.toNat ≤ 0x5F) ∨ 0x60 ≤ w.toNat →
    step s = .next { s with inputs := rest, rspData := 0x00000000#32, rspErr := true }

/-- R140, R141: at an edge with `rst = 1` every register takes its construction value, from any state, and a command
offered in the same cycle is not performed. -/
def Obligations.ConstructionResetHasPriority : Prop :=
  ∀ (s : State) (v : Bool) (w : Byte) (rest : List EdgeInput),
    s.inputs = ⟨true, v, w⟩ :: rest →
    step s = .next {
      cursor := 0#6, buf := #v[0x00#8, 0x00#8, 0x00#8, 0x00#8, 0x00#8], frameValid := false,
      humValid := false, humQ := 0#10, tmpValid := false, tmpRaw := 0#16,
      co2Valid := false, co2Raw := 0#16, rspData := 0x00000000#32, rspErr := false,
      celsiusArith := s.celsiusArith, inputs := rest }

/-- 30_encoding.md section 1 and 60_exceptions.md section 5: an edge with neither `rst` nor `cmd_valid` changes nothing,
whatever stands on `cmd`. That an exhausted schedule is such an edge is the model's choice (log 1). -/
def Obligations.IdleEdgeChangesNothing : Prop :=
  ∀ s : State, s.cursorLegal →
    (s.inputs = [] → step s = .next s) ∧
    (∀ (w : Byte) (rest : List EdgeInput), s.inputs = ⟨false, false, w⟩ :: rest →
      step s = .next { s with inputs := rest })

/-- 10_state.md section 6, R21, and 93_implementation_defined.md U5: a state whose cursor holds 41..63 is treated as faulted.
The model's choice (log 3) is a 6-bit cursor, and that only the construction reset leaves such a state. -/
def Obligations.IllegalCursorFaults : Prop :=
  ∀ s : State, 41 ≤ s.cursor.toNat →
    (∀ i, exec i s = .fault .cursorOutOfRange) ∧
    (∀ w, accept w s = .fault .cursorOutOfRange) ∧
    (s.inputs = [] → step s = .fault .cursorOutOfRange) ∧
    (∀ e rest, s.inputs = e :: rest → e.rst = false → step s = .fault .cursorOutOfRange)

/-- 10_state.md section 8 (reset values): each register right after the construction reset. -/
def Obligations.ResetRegisterValues : Prop :=
  State.reset.cursor = 0#6 ∧ (∀ i : Fin 5, State.reset.buf[i] = 0x00#8) ∧
  State.reset.frameValid = false ∧ State.reset.humValid = false ∧ State.reset.tmpValid = false ∧
  State.reset.co2Valid = false ∧ State.reset.humQ = 0#10 ∧ State.reset.tmpRaw = 0#16 ∧
  State.reset.co2Raw = 0#16 ∧ State.reset.rspData = 0x00000000#32 ∧ State.reset.rspErr = false

/-- 10_state.md section 6: the invariant holds right after reset. -/
def Obligations.ResetMeetsInvariant : Prop := State.reset.Inv

/-- 10_state.md section 6, R21, R22, R27 [each derived], and section 4 (hum_q is at most 655): every step keeps the legal cursor, the zero
value of an invalid reading, the bound of the humidity quotient and the zero tail of the buffer. -/
def Obligations.StepKeepsInvariant : Prop :=
  ∀ s t : State, s.Inv → step s = .next t → t.Inv

/-- R120: "Every command word, in every reachable state, completes in one step with a response", and
`rsp_err = 1` only ever means that the word was reserved (30_encoding.md section 4). -/
def Obligations.EveryWordCompletesInOneStep : Prop :=
  ∀ (w : Byte) (s : State), s.cursorLegal →
    ∃ t, accept w s = .next t ∧ step { s with inputs := ⟨false, true, w⟩ :: s.inputs } = .next t ∧
      t.cursorLegal ∧ (t.rspErr = true ↔ wordReserved w = true)

/-- 10_state.md section 1 (R10) and 00_scope.md section 5 (R7): the parameter and the host's schedule are no state of the
block but inputs of the step, so no command writes either. That both stand in fields of State (logs 1 and 2), and that
a step takes one edge off the schedule (log 1), are the model's choices. -/
def Obligations.StepInputsAreNotWritten : Prop :=
  (∀ (i : Instr) (s t : State), exec i s = .next t →
    t.celsiusArith = s.celsiusArith ∧ t.inputs = s.inputs) ∧
  (∀ s t : State, step s = .next t → t.celsiusArith = s.celsiusArith ∧ t.inputs = s.inputs.tail)

/-- 10_state.md section 6, R22 [derived]: "Once a valid bit is 1, it stays 1 until the next construction reset". -/
def Obligations.ValidBitsStayUntilConstructionReset : Prop :=
  ∀ s t : State, step s = .next t → s.nextAction ≠ .construct →
    (s.humValid = true → t.humValid = true) ∧ (s.tmpValid = true → t.tmpValid = true) ∧
    (s.co2Valid = true → t.co2Valid = true)

/-! ### Sequences of commands -/

/-- 40_store.md section 5, R71 [derived]: "After FRESET (or the construction reset) and exactly 40 STOREs" (SENDFRAME, R50)
the buffer holds the five bytes sent, and the flag and the readings are the frame's by its checksum and tag. It holds
from every state with cursor 0, whatever the buffer holds ("It would hold even if FRESET did not zero the buffer"), so
after FRESET in every phase and right after the construction reset, where no FRESET is needed
(70_reset_and_hazards.md section 2). -/
def Obligations.FrameAfterFresetIsDecoded : Prop :=
  ∀ (s : State) (b0 b1 b2 b3 b4 : Byte),
    (s.cursor = 0#6 → ∃ t, issue (sendFrame b0 b1 b2 b3 b4) s = .next t ∧ s.frameDecoded t b0 b1 b2 b3 b4) ∧
    (s.cursorLegal → ∃ t, issue (.freset :: sendFrame b0 b1 b2 b3 b4) s = .next t ∧
      s.frameDecoded t b0 b1 b2 b3 b4) ∧
    (∃ t, issue (sendFrame b0 b1 b2 b3 b4) s.construct = .next t ∧
      s.construct.frameDecoded t b0 b1 b2 b3 b4)

/-- 40_store.md section 5, R72 [derived]: STOREs that do not reach the fortieth run nothing; `frame_valid` and the readings
keep their values and the cursor counts the bits. -/
def Obligations.IncompleteFrameRunsNoValidation : Prop :=
  ∀ (s : State) (bits : List Bool), s.cursor.toNat + bits.length < 40 →
    ∃ t, issue (bits.map .store) s = .next t ∧
      t.cursor.toNat = s.cursor.toNat + bits.length ∧
      t.frameValid = s.frameValid ∧ s.sameReadings t

/-- 40_store.md sections 4 and 5, R72 [derived]: the 41st STORE and later are rejected, however many, so validation runs at
most once before the next FRESET. -/
def Obligations.OverrunBitsChangeNothing : Prop :=
  ∀ (s : State) (bits : List Bool), s.cursor.toNat = 40 → bits ≠ [] →
    issue (bits.map .store) s = .next { s with rspData := 0x00000000#32, rspErr := false }

/-- 20_memory.md section 6 and 70_reset_and_hazards.md section 6 (R38, R150): "the state after commands `c1 ... cn` is the
composition of their rules in that order", and the observation is their responses in that order. No command leaves the
state; the word of a command is that command's rule (`exec`) with its own response, a reserved word is its rule (R47);
a run falls apart, and is put together, at every place; and a command sees the earlier commands' effects and no later
one's: READMORE before FRESET, in FrameComplete, answers 0, and after it 1. -/
def Obligations.RunsCompose : Prop :=
  (∀ s : State, run [] s = .next ⟨[], s⟩) ∧
  (∀ (w : Byte) (i : Instr) (s t : State), decode w = .ok i → exec i s = .next t →
    accept w s = .next t ∧ run [w] s = .next ⟨[t.response], t⟩) ∧
  (∀ (w : Byte) (s : State), wordReserved w = true → s.cursorLegal →
    run [w] s = .next ⟨[(0x00000000#32, true)], { s with rspData := 0x00000000#32, rspErr := true }⟩) ∧
  (∀ (ws vs : List Byte) (s : State) (o p : Observation),
    run ws s = .next o → run vs o.final = .next p →
    run (ws ++ vs) s = .next ⟨o.responses ++ p.responses, p.final⟩) ∧
  (∀ (ws vs : List Byte) (s : State) (q : Observation), run (ws ++ vs) s = .next q →
    ∃ o p, run ws s = .next o ∧ run vs o.final = .next p ∧
      q = ⟨o.responses ++ p.responses, p.final⟩) ∧
  (∀ s : State, s.cursor.toNat = 40 →
    ∃ t, run [0x20#8, 0x10#8, 0x20#8] s =
      .next ⟨[(0x00000000#32, false), (0x00000000#32, false), (0x00000001#32, false)], t⟩)

/-- 70_reset_and_hazards.md section 6 (R150): "The block never stops by itself". Any words at all, from any state that meets
the invariant, run to the end with one response each, and the invariant holds there. -/
def Obligations.RunsNeverStop : Prop :=
  ∀ (ws : List Byte) (s : State), s.Inv →
    ∃ o, run ws s = .next o ∧ o.responses.length = ws.length ∧ o.final.Inv

/-- 30_encoding.md section 1 and 70_reset_and_hazards.md sections 4 and 6 (R40, R147, R148, R150): stepping the machine through
edges at which the host offers the words one by one is the run of those words, in both halves of its observation. The
response register after the step of the k-th word holds the k-th response, and the last state is the final one. -/
def Obligations.SteppingTheScheduleIsTheRun : Prop :=
  ∀ (ws : List Byte) (rest : List EdgeInput) (s : State) (o : Observation),
    run ws { s with inputs := rest } = .next o →
    o.responses.length = ws.length ∧
    (∀ k, k < ws.length → ∃ t,
      Host.Core.run Sys2Proof.core (k + 1)
        { s with inputs := (ws.map fun w => ⟨false, true, w⟩) ++ rest } = .next t ∧
      o.responses[k]? = some (State.response t)) ∧
    Host.Core.run Sys2Proof.core ws.length
      { s with inputs := (ws.map fun w => ⟨false, true, w⟩) ++ rest } = .next o.final
end

