-- ==== Sys2Proof/Laws/Float.lean ====
section
/-! SUPPORT. What the pieces of `f32` answer: the rounding of a quotient, its binade, the value of the 31-bit magnitude and
the fields of the result. Proofs about binary32 results cite these. -/

namespace Sys2Proof.Machine

/-- The rounded quotient is within half a divisor of the dividend, and even when it is exactly half away. -/
theorem roundHalfEven_spec (n d : Nat) (hd : 0 < d) :
    2 * (roundHalfEven n d * d) ≤ 2 * n + d ∧ 2 * n ≤ 2 * (roundHalfEven n d * d) + d ∧
      (2 * (roundHalfEven n d * d) = 2 * n + d ∨ 2 * n = 2 * (roundHalfEven n d * d) + d →
        roundHalfEven n d % 2 = 0) := by
  have h1 := Nat.div_add_mod' n d
  have h2 := Nat.mod_lt n hd
  have h3 : (n / d + 1) * d = n / d * d + d := by ring
  unfold roundHalfEven
  split
  · omega
  · split
    · rw [h3]; omega
    · rcases Nat.mod_two_eq_zero_or_one (n / d) with h | h
      · rw [h, Nat.add_zero]; omega
      · rw [h, h3]; omega

/-- The binade of a positive fraction: `2 ^ e ≤ n / d < 2 ^ (e + 1)`. -/
theorem floorLog2_spec (n d : Nat) (hn : 0 < n) (hd : 0 < d) :
    (2 : ℚ) ^ floorLog2 n d ≤ (n : ℚ) / d ∧ (n : ℚ) / d < (2 : ℚ) ^ (floorLog2 n d + 1) := by
  have hd' : (0 : ℚ) < d := by exact_mod_cast hd
  have n1 : (2 : ℚ) ^ (Nat.log2 n : Int) ≤ n := by
    exact_mod_cast Nat.log2_self_le (by omega)
  have n2 : (n : ℚ) < (2 : ℚ) ^ ((Nat.log2 n : Int) + 1) := by
    exact_mod_cast Nat.lt_log2_self
  have d1 : (2 : ℚ) ^ (Nat.log2 d : Int) ≤ d := by
    exact_mod_cast Nat.log2_self_le (by omega)
  have d2 : (d : ℚ) < (2 : ℚ) ^ ((Nat.log2 d : Int) + 1) := by
    exact_mod_cast Nat.lt_log2_self
  have two : (2 : ℚ) ≠ 0 := by norm_num
  set e : Int := (Nat.log2 n : Int) - (Nat.log2 d : Int) with he
  -- the coarse bounds that the two logarithms give
  have upper : (n : ℚ) / d < (2 : ℚ) ^ (e + 1) := by
    rw [div_lt_iff₀ hd']
    calc (n : ℚ) < (2 : ℚ) ^ ((Nat.log2 n : Int) + 1) := n2
      _ = (2 : ℚ) ^ (e + 1) * (2 : ℚ) ^ (Nat.log2 d : Int) := by rw [← zpow_add₀ two]; congr 1; omega
      _ ≤ (2 : ℚ) ^ (e + 1) * d := by gcongr
  have lower : (2 : ℚ) ^ (e - 1) ≤ (n : ℚ) / d := by
    rw [le_div_iff₀ hd']
    calc (2 : ℚ) ^ (e - 1) * d ≤ (2 : ℚ) ^ (e - 1) * (2 : ℚ) ^ ((Nat.log2 d : Int) + 1) := by gcongr
      _ = (2 : ℚ) ^ (Nat.log2 n : Int) := by rw [← zpow_add₀ two]; congr 1; omega
      _ ≤ n := n1
  -- the test of the definition decides between the two binades
  have split_pow : (2 : ℚ) ^ e = (2 : ℚ) ^ e.toNat / (2 : ℚ) ^ (-e).toNat := by
    rw [← zpow_natCast, ← zpow_natCast, ← zpow_sub₀ two]; congr 1; omega
  have test : d * 2 ^ e.toNat ≤ n * 2 ^ (-e).toNat ↔ (2 : ℚ) ^ e ≤ (n : ℚ) / d := by
    rw [split_pow, div_le_div_iff₀ (by positivity) hd', mul_comm ((2 : ℚ) ^ e.toNat)]
    exact_mod_cast Iff.rfl
  unfold floorLog2
  simp only [← he]
  split
  · exact ⟨test.1 ‹_›, upper⟩
  · refine ⟨lower, ?_⟩
    rw [sub_add_cancel]
    exact lt_of_not_ge fun h => ‹¬_› (test.2 h)

/-- A positive fraction has one binade. -/
theorem floorLog2_unique (n d : Nat) (hn : 0 < n) (hd : 0 < d) (e : Int)
    (h1 : (2 : ℚ) ^ e ≤ (n : ℚ) / d) (h2 : (n : ℚ) / d < (2 : ℚ) ^ (e + 1)) : floorLog2 n d = e := by
  obtain ⟨a, b⟩ := floorLog2_spec n d hn hd
  have h3 : floorLog2 n d < e + 1 := (zpow_lt_zpow_iff_right₀ (by norm_num : (1 : ℚ) < 2)).1 (a.trans_lt h2)
  have h4 : e < floorLog2 n d + 1 := (zpow_lt_zpow_iff_right₀ (by norm_num : (1 : ℚ) < 2)).1 (h1.trans_lt b)
  omega

/-- The rounding of a fraction depends on its value alone. -/
theorem roundHalfEven_congr {n d n' d' : Nat} (hd : 0 < d) (hd' : 0 < d') (h : n * d' = n' * d) :
    roundHalfEven n d = roundHalfEven n' d' := by
  have q1 : n / d = n' / d' := by
    apply Nat.div_eq_of_lt_le
    · have := Nat.div_mul_le_self n' d'
      exact Nat.le_of_mul_le_mul_right (by nlinarith) hd'
    · have := Nat.lt_div_mul_add (a := n') hd'
      exact Nat.lt_of_mul_lt_mul_right (a := d') (by nlinarith)
  have r1 : n % d * d' = n' % d' * d := by
    have a := Nat.div_add_mod' n d
    have b := Nat.div_add_mod' n' d'
    rw [q1] at a
    nlinarith
  have c1 : 2 * (n % d) < d ↔ 2 * (n' % d') < d' := by
    constructor <;> intro hh
    · exact Nat.lt_of_mul_lt_mul_right (a := d) (by nlinarith)
    · exact Nat.lt_of_mul_lt_mul_right (a := d') (by nlinarith)
  have c2 : d < 2 * (n % d) ↔ d' < 2 * (n' % d') := by
    constructor <;> intro hh
    · exact Nat.lt_of_mul_lt_mul_right (a := d) (by nlinarith)
    · exact Nat.lt_of_mul_lt_mul_right (a := d') (by nlinarith)
  unfold roundHalfEven
  simp only [q1, c1, c2]

/-- The fields of `f32` of a fraction that is not 0. -/
theorem f32_of_ne_zero (q : Frac) (h : q.num ≠ 0) :
    f32 q = ⟨decide (q.num < 0), BitVec.ofNat 8 (magnitude32 q.num.natAbs q.den / 2 ^ 23),
      BitVec.ofNat 23 (magnitude32 q.num.natAbs q.den % 2 ^ 23)⟩ := if_neg h

theorem f32_of_zero (q : Frac) (h : q.num = 0) : f32 q = ⟨false, 0#8, 0#23⟩ := if_pos h

/-- The magnitude never exceeds that of the infinity. -/
theorem magnitude32_le (n d : Nat) : magnitude32 n d ≤ 255 * 2 ^ 23 := Nat.min_le_right _ _

/-- A fraction scaled by a power of two, in the form `magnitude32` rounds. -/
theorem scaled_toRat (n d : Nat) (k : Int) (hd : 0 < d) :
    ((n * 2 ^ k.toNat : Nat) : ℚ) / ((d * 2 ^ (-k).toNat : Nat) : ℚ) = (n : ℚ) / d * 2 ^ k := by
  have hk : (2 : ℚ) ^ k = (2 : ℚ) ^ k.toNat / (2 : ℚ) ^ (-k).toNat := by
    rw [← zpow_natCast, ← zpow_natCast, ← zpow_sub₀ (by norm_num)]; congr 1; omega
  have : (d : ℚ) ≠ 0 := by positivity
  rw [hk]; push_cast; field_simp

/-- In a normal binade the significand is the rounded one, from `2 ^ 23` up to and including `2 ^ 24`. -/
theorem magnitude32_normal (n d : Nat) (hn : 0 < n) (hd : 0 < d) (e : Int) (he : floorLog2 n d = e)
    (h1 : -126 ≤ e) (h2 : e ≤ 126) :
    ∃ m, magnitude32 n d = (e + 126).toNat * 2 ^ 23 + m ∧ 2 ^ 23 ≤ m ∧ m ≤ 2 ^ 24 ∧
      m = roundHalfEven (n * 2 ^ (23 - e).toNat) (d * 2 ^ (-(23 - e)).toNat) := by
  have hmax : max (floorLog2 n d) (-126) = e := by omega
  obtain ⟨a, b⟩ := floorLog2_spec n d hn hd
  rw [he] at a b
  set N := n * 2 ^ (23 - e).toNat with hN
  set D := d * 2 ^ (-(23 - e)).toNat with hD
  have hD0 : 0 < D := by positivity
  have hD1 : (0 : ℚ) < D := by exact_mod_cast hD0
  have hq : (N : ℚ) / D = (n : ℚ) / d * 2 ^ (23 - e) := scaled_toRat n d _ hd
  have two : (2 : ℚ) ≠ 0 := by norm_num
  have l1 : (2 : ℚ) ^ 23 ≤ (N : ℚ) / D := by
    rw [hq]
    calc (2 : ℚ) ^ 23 = (2 : ℚ) ^ e * 2 ^ (23 - e) := by
          rw [← zpow_add₀ two, show e + (23 - e) = 23 by omega]; norm_num
      _ ≤ _ := by gcongr
  have l2 : (N : ℚ) / D < (2 : ℚ) ^ 24 := by
    rw [hq]
    calc (n : ℚ) / d * 2 ^ (23 - e) < (2 : ℚ) ^ (e + 1) * 2 ^ (23 - e) := by gcongr
      _ = (2 : ℚ) ^ 24 := by rw [← zpow_add₀ two, show e + 1 + (23 - e) = 24 by omega]; norm_num
  rw [le_div_iff₀ hD1] at l1
  rw [div_lt_iff₀ hD1] at l2
  have l1 : 2 ^ 23 * D ≤ N := by exact_mod_cast l1
  have l2 : N < 2 ^ 24 * D := by exact_mod_cast l2
  obtain ⟨s1, s2, -⟩ := roundHalfEven_spec N D hD0
  set m := roundHalfEven N D with hm
  have m1 : 2 ^ 23 ≤ m := by
    by_contra hc
    have : (m + 1) * D ≤ 2 ^ 23 * D := Nat.mul_le_mul_right _ (by omega)
    nlinarith
  have m2 : m ≤ 2 ^ 24 := by
    by_contra hc
    have : (2 ^ 24 + 1) * D ≤ m * D := Nat.mul_le_mul_right _ (by omega)
    nlinarith
  refine ⟨m, ?_, m1, m2, rfl⟩
  unfold magnitude32
  simp only [hmax]
  rw [← hN, ← hD, ← hm]
  have h3 : (e + 126).toNat ≤ 252 := by omega
  have h4 := Nat.mul_le_mul_right (2 ^ 23) h3
  have h5 : m ≤ 2 * 2 ^ 23 := by rw [← pow_succ']; exact m2
  have h6 : (e + 126).toNat * 2 ^ 23 + m ≤ 255 * 2 ^ 23 := by
    clear_value m
    generalize 2 ^ 23 = P at *
    omega
  exact Nat.min_eq_left h6

/-- The fields of `f32` in a normal binade. -/
theorem f32_normal (q : Frac) (h0 : q.num ≠ 0) (hd : 0 < q.den) (e : Int)
    (he : floorLog2 q.num.natAbs q.den = e) (h1 : -126 ≤ e) (h2 : e ≤ 126) :
    ∃ m : Nat, 2 ^ 23 ≤ m ∧ m ≤ 2 ^ 24 ∧
      m = roundHalfEven (q.num.natAbs * 2 ^ (23 - e).toNat) (q.den * 2 ^ (-(23 - e)).toNat) ∧
      f32 q = ⟨decide (q.num < 0), BitVec.ofNat 8 ((e + 126).toNat + m / 2 ^ 23), BitVec.ofNat 23 (m % 2 ^ 23)⟩ := by
  obtain ⟨m, hm, a, b, c⟩ := magnitude32_normal q.num.natAbs q.den (by omega) hd e he h1 h2
  refine ⟨m, a, b, c, ?_⟩
  rw [f32_of_ne_zero q h0, hm]
  congr 2 <;> omega

/-- `f32` depends on the value of the fraction alone. -/
theorem f32_congr {p q : Frac} (hp : 0 < p.den) (hq : 0 < q.den) (h : p.toRat = q.toRat) : f32 p = f32 q := by
  have hp1 : (0 : ℚ) < p.den := by exact_mod_cast hp
  have hq1 : (0 : ℚ) < q.den := by exact_mod_cast hq
  have hx : p.num * q.den = q.num * p.den := by
    unfold Frac.toRat at h
    rw [div_eq_div_iff hp1.ne' hq1.ne'] at h
    exact_mod_cast h
  have hp2 : (0 : Int) < p.den := by exact_mod_cast hp
  have hq2 : (0 : Int) < q.den := by exact_mod_cast hq
  by_cases h0 : p.num = 0
  · have h1 : q.num = 0 := by rw [h0] at hx; simp at hx; omega
    rw [f32_of_zero p h0, f32_of_zero q h1]
  · have h1 : q.num ≠ 0 := by intro hz; rw [hz] at hx; simp at hx; omega
    have hs : p.num < 0 ↔ q.num < 0 := by
      constructor <;> intro hh
      · by_contra hc; nlinarith
      · by_contra hc; nlinarith
    have ha : p.num.natAbs * q.den = q.num.natAbs * p.den := by
      simpa [Int.natAbs_mul] using congrArg Int.natAbs hx
    have hfl : floorLog2 p.num.natAbs p.den = floorLog2 q.num.natAbs q.den := by
      have e : (p.num.natAbs : ℚ) / p.den = (q.num.natAbs : ℚ) / q.den := by
        rw [div_eq_div_iff hp1.ne' hq1.ne']; exact_mod_cast ha
      obtain ⟨a, b⟩ := floorLog2_spec q.num.natAbs q.den (by omega) hq
      rw [← e] at a b
      exact floorLog2_unique _ _ (by omega) hp _ a b
    have hm : magnitude32 p.num.natAbs p.den = magnitude32 q.num.natAbs q.den := by
      unfold magnitude32
      simp only [hfl]
      congr 2
      apply roundHalfEven_congr (by positivity) (by positivity)
      generalize 2 ^ (-(23 - max (floorLog2 q.num.natAbs q.den) (-126))).toNat = X
      generalize 2 ^ (23 - max (floorLog2 q.num.natAbs q.den) (-126)).toNat = Y
      calc p.num.natAbs * Y * (q.den * X) = p.num.natAbs * q.den * (Y * X) := by ring
        _ = _ := by rw [ha]; ring
    rw [f32_of_ne_zero p h0, f32_of_ne_zero q h1, hm]
    simp [hs]

/-- The bits of a binary32 word by field. -/
theorem bits32_getLsbD (x : Binary32) (i : Nat) :
    (bits32 x).getLsbD i = if i < 23 then x.fraction.getLsbD i
      else if i < 31 then x.exponent.getLsbD (i - 23) else (decide (i = 31) && x.sign) := by
  unfold bits32
  change BitVec.getLsbD (w := 1 + 8 + 23) (BitVec.ofBool x.sign ++ x.exponent ++ x.fraction) i = _
  simp only [BitVec.getLsbD_append, BitVec.getLsbD_ofBool]
  have c : i - 23 < 8 ↔ i < 31 := by omega
  rw [show i - 23 - 8 = i - 31 by omega]
  by_cases h1 : i < 23 <;> by_cases h2 : i < 31 <;> simp [c, h1, h2]
  by_cases h3 : i = 31
  · simp [h3]
  · have : ¬(i - 31 = 0) := by omega
    simp [h3, this]

/-- The exact difference in rational terms. -/
theorem fracSub_toRat (a b : Frac) (ha : 0 < a.den) (hb : 0 < b.den) :
    (fracSub a b).toRat = a.toRat - b.toRat := by
  have : (a.den : ℚ) ≠ 0 := by positivity
  have : (b.den : ℚ) ≠ 0 := by positivity
  unfold fracSub Frac.toRat
  push_cast
  field_simp

/-- The exact value of a binary32 by its fields. -/
theorem exact32_toRat (x : Binary32) :
    (exact32 x).toRat = (if x.sign then -1 else 1) * (significand32 x : ℚ) *
      (2 : ℚ) ^ ((max x.exponent.toNat 1 : Nat) - 150 : Int) := by
  have two : (2 : ℚ) ≠ 0 := by norm_num
  have key : ∀ e a b : Nat, e - 150 = a → 150 - e = b → (2 : ℚ) ^ ((e : Int) - 150) = (2 : ℚ) ^ a / (2 : ℚ) ^ b := by
    rintro e a b rfl rfl
    rw [← zpow_natCast, ← zpow_natCast, ← zpow_sub₀ two]
    exact congrArg ((2 : ℚ) ^ ·) (by omega)
  rw [key _ _ _ rfl rfl]
  simp only [exact32, Frac.toRat]
  cases x.sign
  · simp only [Bool.false_eq_true, if_false, Nat.cast_mul, Nat.cast_pow, Int.cast_mul, Int.cast_pow, Int.cast_natCast, Nat.cast_ofNat, Int.cast_ofNat, one_mul, mul_div_assoc]
  · simp only [if_true, Nat.cast_mul, Nat.cast_pow, Int.cast_neg, Int.cast_mul, Int.cast_pow, Int.cast_natCast, Nat.cast_ofNat, Int.cast_ofNat, neg_mul, one_mul, neg_div, mul_div_assoc]

/-- The value of a finite 31-bit magnitude `E * 2 ^ 23 + m`, where `m` is a significand (below `2 ^ 23` only for
`E = 0`, and `2 ^ 24` where rounding carried). -/
theorem exact32_of_magnitude (s : Bool) (E m : Nat) (h : E = 0 ∨ 2 ^ 23 ≤ m) (hm : m ≤ 2 ^ 24)
    (hfin : E * 2 ^ 23 + m < 255 * 2 ^ 23) :
    (exact32 ⟨s, BitVec.ofNat 8 ((E * 2 ^ 23 + m) / 2 ^ 23), BitVec.ofNat 23 ((E * 2 ^ 23 + m) % 2 ^ 23)⟩).toRat =
      (if s then -1 else 1) * (m : ℚ) * (2 : ℚ) ^ ((E : Int) - 149) := by
  have two : (2 : ℚ) ≠ 0 := by norm_num
  have d1 : (E * 2 ^ 23 + m) / 2 ^ 23 = E + m / 2 ^ 23 := by
    rw [Nat.add_comm, Nat.add_mul_div_right _ _ (by positivity), Nat.add_comm]
  have d2 : (E * 2 ^ 23 + m) % 2 ^ 23 = m % 2 ^ 23 := Nat.mul_add_mod_self_right ..
  have d3 : E + m / 2 ^ 23 < 255 := by rw [← d1]; rw [Nat.div_lt_iff_lt_mul (by positivity)]; exact hfin
  rw [exact32_toRat, d1, d2]
  have hf : (BitVec.ofNat 23 (m % 2 ^ 23)).toNat = m % 2 ^ 23 := by simp
  have he : (BitVec.ofNat 8 (E + m / 2 ^ 23)).toNat = E + m / 2 ^ 23 := by
    rw [BitVec.toNat_ofNat]; exact Nat.mod_eq_of_lt (by omega)
  have hz : BitVec.ofNat 8 (E + m / 2 ^ 23) = 0#8 ↔ E + m / 2 ^ 23 = 0 := by
    rw [← BitVec.toNat_inj, he]; rfl
  simp only [significand32, hf, he, hz]
  rcases (by omega : m < 2 ^ 23 ∨ (2 ^ 23 ≤ m ∧ m < 2 ^ 24) ∨ m = 2 ^ 24) with h1 | ⟨h1, h2⟩ | h1
  · have hE : E = 0 := by omega
    have hq : m / 2 ^ 23 = 0 := Nat.div_eq_of_lt h1
    rw [hE, hq, Nat.mod_eq_of_lt h1, if_pos rfl]; norm_num
  · have hq : m / 2 ^ 23 = 1 := by
      clear hf he hz; omega
    have hr : 2 ^ 23 + m % 2 ^ 23 = m := by
      have := Nat.div_add_mod m (2 ^ 23); rwa [hq, Nat.mul_one] at this
    rw [hq, if_neg (Nat.succ_ne_zero E), hr, Nat.max_eq_left (Nat.succ_le_succ (Nat.zero_le E))]
    congr 2; push_cast; ring
  · have hq : m / 2 ^ 23 = 2 := h1 ▸ (by decide : 16777216 / 8388608 = 2)
    have hr : m % 2 ^ 23 = 0 := by rw [h1]; norm_num
    have n1 : ¬E + 2 = 0 := Nat.succ_ne_zero _
    have n2 : 1 ≤ E + 2 := by clear h1 hq hr; omega
    rw [hq, hr, if_neg n1, Nat.max_eq_left n2, h1]
    have : ((E + 2 : Nat) : Int) - 150 = ((E : Int) - 149) + 1 := by push_cast; ring
    rw [this, zpow_add₀ two]; push_cast; ring

/-- No two binary32 data share a word. -/
theorem bits32_injective {x y : Binary32} (h : bits32 x = bits32 y) : x = y := by
  have hb : ∀ i, (bits32 x).getLsbD i = (bits32 y).getLsbD i := fun i => by rw [h]
  simp only [bits32_getLsbD] at hb
  have h1 : x.fraction = y.fraction := by
    apply BitVec.eq_of_getLsbD_eq; intro i hi; simpa [hi] using hb i
  have h2 : x.exponent = y.exponent := by
    apply BitVec.eq_of_getLsbD_eq; intro i hi
    have n1 : ¬i + 23 < 23 := by omega
    have n2 : i + 23 < 31 := by omega
    simpa only [if_neg n1, if_pos n2, Nat.add_sub_cancel] using hb (i + 23)
  have h3 : x.sign = y.sign := by simpa using hb 31
  cases x; cases y; simp_all

end Sys2Proof.Machine
end

