-- ==== Sys2Proof/Laws/State.lean ====
section
/-! SUPPORT. What each register update does to each field of the state: one lemma per field per update, so that no proof
unfolds a record update. -/

namespace Sys2Proof.Machine

/-! ### respond -/

@[simp] theorem State.respond_cursor (s : State) (d : Word) (e : Bool) :
    (s.respond d e).cursor = s.cursor := rfl

@[simp] theorem State.respond_buf (s : State) (d : Word) (e : Bool) :
    (s.respond d e).buf = s.buf := rfl

@[simp] theorem State.respond_frameValid (s : State) (d : Word) (e : Bool) :
    (s.respond d e).frameValid = s.frameValid := rfl

@[simp] theorem State.respond_humValid (s : State) (d : Word) (e : Bool) :
    (s.respond d e).humValid = s.humValid := rfl

@[simp] theorem State.respond_humQ (s : State) (d : Word) (e : Bool) :
    (s.respond d e).humQ = s.humQ := rfl

@[simp] theorem State.respond_tmpValid (s : State) (d : Word) (e : Bool) :
    (s.respond d e).tmpValid = s.tmpValid := rfl

@[simp] theorem State.respond_tmpRaw (s : State) (d : Word) (e : Bool) :
    (s.respond d e).tmpRaw = s.tmpRaw := rfl

@[simp] theorem State.respond_co2Valid (s : State) (d : Word) (e : Bool) :
    (s.respond d e).co2Valid = s.co2Valid := rfl

@[simp] theorem State.respond_co2Raw (s : State) (d : Word) (e : Bool) :
    (s.respond d e).co2Raw = s.co2Raw := rfl

@[simp] theorem State.respond_rspData (s : State) (d : Word) (e : Bool) :
    (s.respond d e).rspData = d := rfl

@[simp] theorem State.respond_rspErr (s : State) (d : Word) (e : Bool) :
    (s.respond d e).rspErr = e := rfl

@[simp] theorem State.respond_celsiusArith (s : State) (d : Word) (e : Bool) :
    (s.respond d e).celsiusArith = s.celsiusArith := rfl

@[simp] theorem State.respond_inputs (s : State) (d : Word) (e : Bool) :
    (s.respond d e).inputs = s.inputs := rfl

/-! ### writeBit -/

@[simp] theorem State.writeBit_cursor (s : State) (k : Nat) (b : Bool) :
    (s.writeBit k b).cursor = s.cursor := rfl

@[simp] theorem State.writeBit_buf (s : State) (k : Nat) (b : Bool) :
    (s.writeBit k b).buf = bufWriteBit s.buf k b := rfl

@[simp] theorem State.writeBit_frameValid (s : State) (k : Nat) (b : Bool) :
    (s.writeBit k b).frameValid = s.frameValid := rfl

@[simp] theorem State.writeBit_humValid (s : State) (k : Nat) (b : Bool) :
    (s.writeBit k b).humValid = s.humValid := rfl

@[simp] theorem State.writeBit_humQ (s : State) (k : Nat) (b : Bool) :
    (s.writeBit k b).humQ = s.humQ := rfl

@[simp] theorem State.writeBit_tmpValid (s : State) (k : Nat) (b : Bool) :
    (s.writeBit k b).tmpValid = s.tmpValid := rfl

@[simp] theorem State.writeBit_tmpRaw (s : State) (k : Nat) (b : Bool) :
    (s.writeBit k b).tmpRaw = s.tmpRaw := rfl

@[simp] theorem State.writeBit_co2Valid (s : State) (k : Nat) (b : Bool) :
    (s.writeBit k b).co2Valid = s.co2Valid := rfl

@[simp] theorem State.writeBit_co2Raw (s : State) (k : Nat) (b : Bool) :
    (s.writeBit k b).co2Raw = s.co2Raw := rfl

@[simp] theorem State.writeBit_rspData (s : State) (k : Nat) (b : Bool) :
    (s.writeBit k b).rspData = s.rspData := rfl

@[simp] theorem State.writeBit_rspErr (s : State) (k : Nat) (b : Bool) :
    (s.writeBit k b).rspErr = s.rspErr := rfl

@[simp] theorem State.writeBit_celsiusArith (s : State) (k : Nat) (b : Bool) :
    (s.writeBit k b).celsiusArith = s.celsiusArith := rfl

@[simp] theorem State.writeBit_inputs (s : State) (k : Nat) (b : Bool) :
    (s.writeBit k b).inputs = s.inputs := rfl

/-! ### setCursor -/

@[simp] theorem State.setCursor_cursor (s : State) (c : BitVec 6) :
    (s.setCursor c).cursor = c := rfl

@[simp] theorem State.setCursor_buf (s : State) (c : BitVec 6) :
    (s.setCursor c).buf = s.buf := rfl

@[simp] theorem State.setCursor_frameValid (s : State) (c : BitVec 6) :
    (s.setCursor c).frameValid = s.frameValid := rfl

@[simp] theorem State.setCursor_humValid (s : State) (c : BitVec 6) :
    (s.setCursor c).humValid = s.humValid := rfl

@[simp] theorem State.setCursor_humQ (s : State) (c : BitVec 6) :
    (s.setCursor c).humQ = s.humQ := rfl

@[simp] theorem State.setCursor_tmpValid (s : State) (c : BitVec 6) :
    (s.setCursor c).tmpValid = s.tmpValid := rfl

@[simp] theorem State.setCursor_tmpRaw (s : State) (c : BitVec 6) :
    (s.setCursor c).tmpRaw = s.tmpRaw := rfl

@[simp] theorem State.setCursor_co2Valid (s : State) (c : BitVec 6) :
    (s.setCursor c).co2Valid = s.co2Valid := rfl

@[simp] theorem State.setCursor_co2Raw (s : State) (c : BitVec 6) :
    (s.setCursor c).co2Raw = s.co2Raw := rfl

@[simp] theorem State.setCursor_rspData (s : State) (c : BitVec 6) :
    (s.setCursor c).rspData = s.rspData := rfl

@[simp] theorem State.setCursor_rspErr (s : State) (c : BitVec 6) :
    (s.setCursor c).rspErr = s.rspErr := rfl

@[simp] theorem State.setCursor_celsiusArith (s : State) (c : BitVec 6) :
    (s.setCursor c).celsiusArith = s.celsiusArith := rfl

@[simp] theorem State.setCursor_inputs (s : State) (c : BitVec 6) :
    (s.setCursor c).inputs = s.inputs := rfl

/-! ### clearBuf -/

@[simp] theorem State.clearBuf_cursor (s : State) :
    (s.clearBuf).cursor = s.cursor := rfl

@[simp] theorem State.clearBuf_buf (s : State) :
    (s.clearBuf).buf = #v[0x00#8, 0x00#8, 0x00#8, 0x00#8, 0x00#8] := rfl

@[simp] theorem State.clearBuf_frameValid (s : State) :
    (s.clearBuf).frameValid = s.frameValid := rfl

@[simp] theorem State.clearBuf_humValid (s : State) :
    (s.clearBuf).humValid = s.humValid := rfl

@[simp] theorem State.clearBuf_humQ (s : State) :
    (s.clearBuf).humQ = s.humQ := rfl

@[simp] theorem State.clearBuf_tmpValid (s : State) :
    (s.clearBuf).tmpValid = s.tmpValid := rfl

@[simp] theorem State.clearBuf_tmpRaw (s : State) :
    (s.clearBuf).tmpRaw = s.tmpRaw := rfl

@[simp] theorem State.clearBuf_co2Valid (s : State) :
    (s.clearBuf).co2Valid = s.co2Valid := rfl

@[simp] theorem State.clearBuf_co2Raw (s : State) :
    (s.clearBuf).co2Raw = s.co2Raw := rfl

@[simp] theorem State.clearBuf_rspData (s : State) :
    (s.clearBuf).rspData = s.rspData := rfl

@[simp] theorem State.clearBuf_rspErr (s : State) :
    (s.clearBuf).rspErr = s.rspErr := rfl

@[simp] theorem State.clearBuf_celsiusArith (s : State) :
    (s.clearBuf).celsiusArith = s.celsiusArith := rfl

@[simp] theorem State.clearBuf_inputs (s : State) :
    (s.clearBuf).inputs = s.inputs := rfl

/-! ### setFrameValid -/

@[simp] theorem State.setFrameValid_cursor (s : State) (v : Bool) :
    (s.setFrameValid v).cursor = s.cursor := rfl

@[simp] theorem State.setFrameValid_buf (s : State) (v : Bool) :
    (s.setFrameValid v).buf = s.buf := rfl

@[simp] theorem State.setFrameValid_frameValid (s : State) (v : Bool) :
    (s.setFrameValid v).frameValid = v := rfl

@[simp] theorem State.setFrameValid_humValid (s : State) (v : Bool) :
    (s.setFrameValid v).humValid = s.humValid := rfl

@[simp] theorem State.setFrameValid_humQ (s : State) (v : Bool) :
    (s.setFrameValid v).humQ = s.humQ := rfl

@[simp] theorem State.setFrameValid_tmpValid (s : State) (v : Bool) :
    (s.setFrameValid v).tmpValid = s.tmpValid := rfl

@[simp] theorem State.setFrameValid_tmpRaw (s : State) (v : Bool) :
    (s.setFrameValid v).tmpRaw = s.tmpRaw := rfl

@[simp] theorem State.setFrameValid_co2Valid (s : State) (v : Bool) :
    (s.setFrameValid v).co2Valid = s.co2Valid := rfl

@[simp] theorem State.setFrameValid_co2Raw (s : State) (v : Bool) :
    (s.setFrameValid v).co2Raw = s.co2Raw := rfl

@[simp] theorem State.setFrameValid_rspData (s : State) (v : Bool) :
    (s.setFrameValid v).rspData = s.rspData := rfl

@[simp] theorem State.setFrameValid_rspErr (s : State) (v : Bool) :
    (s.setFrameValid v).rspErr = s.rspErr := rfl

@[simp] theorem State.setFrameValid_celsiusArith (s : State) (v : Bool) :
    (s.setFrameValid v).celsiusArith = s.celsiusArith := rfl

@[simp] theorem State.setFrameValid_inputs (s : State) (v : Bool) :
    (s.setFrameValid v).inputs = s.inputs := rfl

/-! ### setHum -/

@[simp] theorem State.setHum_cursor (s : State) (q : BitVec 10) :
    (s.setHum q).cursor = s.cursor := rfl

@[simp] theorem State.setHum_buf (s : State) (q : BitVec 10) :
    (s.setHum q).buf = s.buf := rfl

@[simp] theorem State.setHum_frameValid (s : State) (q : BitVec 10) :
    (s.setHum q).frameValid = s.frameValid := rfl

@[simp] theorem State.setHum_humValid (s : State) (q : BitVec 10) :
    (s.setHum q).humValid = true := rfl

@[simp] theorem State.setHum_humQ (s : State) (q : BitVec 10) :
    (s.setHum q).humQ = q := rfl

@[simp] theorem State.setHum_tmpValid (s : State) (q : BitVec 10) :
    (s.setHum q).tmpValid = s.tmpValid := rfl

@[simp] theorem State.setHum_tmpRaw (s : State) (q : BitVec 10) :
    (s.setHum q).tmpRaw = s.tmpRaw := rfl

@[simp] theorem State.setHum_co2Valid (s : State) (q : BitVec 10) :
    (s.setHum q).co2Valid = s.co2Valid := rfl

@[simp] theorem State.setHum_co2Raw (s : State) (q : BitVec 10) :
    (s.setHum q).co2Raw = s.co2Raw := rfl

@[simp] theorem State.setHum_rspData (s : State) (q : BitVec 10) :
    (s.setHum q).rspData = s.rspData := rfl

@[simp] theorem State.setHum_rspErr (s : State) (q : BitVec 10) :
    (s.setHum q).rspErr = s.rspErr := rfl

@[simp] theorem State.setHum_celsiusArith (s : State) (q : BitVec 10) :
    (s.setHum q).celsiusArith = s.celsiusArith := rfl

@[simp] theorem State.setHum_inputs (s : State) (q : BitVec 10) :
    (s.setHum q).inputs = s.inputs := rfl

/-! ### setTmp -/

@[simp] theorem State.setTmp_cursor (s : State) (raw : BitVec 16) :
    (s.setTmp raw).cursor = s.cursor := rfl

@[simp] theorem State.setTmp_buf (s : State) (raw : BitVec 16) :
    (s.setTmp raw).buf = s.buf := rfl

@[simp] theorem State.setTmp_frameValid (s : State) (raw : BitVec 16) :
    (s.setTmp raw).frameValid = s.frameValid := rfl

@[simp] theorem State.setTmp_humValid (s : State) (raw : BitVec 16) :
    (s.setTmp raw).humValid = s.humValid := rfl

@[simp] theorem State.setTmp_humQ (s : State) (raw : BitVec 16) :
    (s.setTmp raw).humQ = s.humQ := rfl

@[simp] theorem State.setTmp_tmpValid (s : State) (raw : BitVec 16) :
    (s.setTmp raw).tmpValid = true := rfl

@[simp] theorem State.setTmp_tmpRaw (s : State) (raw : BitVec 16) :
    (s.setTmp raw).tmpRaw = raw := rfl

@[simp] theorem State.setTmp_co2Valid (s : State) (raw : BitVec 16) :
    (s.setTmp raw).co2Valid = s.co2Valid := rfl

@[simp] theorem State.setTmp_co2Raw (s : State) (raw : BitVec 16) :
    (s.setTmp raw).co2Raw = s.co2Raw := rfl

@[simp] theorem State.setTmp_rspData (s : State) (raw : BitVec 16) :
    (s.setTmp raw).rspData = s.rspData := rfl

@[simp] theorem State.setTmp_rspErr (s : State) (raw : BitVec 16) :
    (s.setTmp raw).rspErr = s.rspErr := rfl

@[simp] theorem State.setTmp_celsiusArith (s : State) (raw : BitVec 16) :
    (s.setTmp raw).celsiusArith = s.celsiusArith := rfl

@[simp] theorem State.setTmp_inputs (s : State) (raw : BitVec 16) :
    (s.setTmp raw).inputs = s.inputs := rfl

/-! ### setCo2 -/

@[simp] theorem State.setCo2_cursor (s : State) (raw : BitVec 16) :
    (s.setCo2 raw).cursor = s.cursor := rfl

@[simp] theorem State.setCo2_buf (s : State) (raw : BitVec 16) :
    (s.setCo2 raw).buf = s.buf := rfl

@[simp] theorem State.setCo2_frameValid (s : State) (raw : BitVec 16) :
    (s.setCo2 raw).frameValid = s.frameValid := rfl

@[simp] theorem State.setCo2_humValid (s : State) (raw : BitVec 16) :
    (s.setCo2 raw).humValid = s.humValid := rfl

@[simp] theorem State.setCo2_humQ (s : State) (raw : BitVec 16) :
    (s.setCo2 raw).humQ = s.humQ := rfl

@[simp] theorem State.setCo2_tmpValid (s : State) (raw : BitVec 16) :
    (s.setCo2 raw).tmpValid = s.tmpValid := rfl

@[simp] theorem State.setCo2_tmpRaw (s : State) (raw : BitVec 16) :
    (s.setCo2 raw).tmpRaw = s.tmpRaw := rfl

@[simp] theorem State.setCo2_co2Valid (s : State) (raw : BitVec 16) :
    (s.setCo2 raw).co2Valid = true := rfl

@[simp] theorem State.setCo2_co2Raw (s : State) (raw : BitVec 16) :
    (s.setCo2 raw).co2Raw = raw := rfl

@[simp] theorem State.setCo2_rspData (s : State) (raw : BitVec 16) :
    (s.setCo2 raw).rspData = s.rspData := rfl

@[simp] theorem State.setCo2_rspErr (s : State) (raw : BitVec 16) :
    (s.setCo2 raw).rspErr = s.rspErr := rfl

@[simp] theorem State.setCo2_celsiusArith (s : State) (raw : BitVec 16) :
    (s.setCo2 raw).celsiusArith = s.celsiusArith := rfl

@[simp] theorem State.setCo2_inputs (s : State) (raw : BitVec 16) :
    (s.setCo2 raw).inputs = s.inputs := rfl

/-! ### setInputs -/

@[simp] theorem State.setInputs_cursor (s : State) (l : List EdgeInput) :
    (s.setInputs l).cursor = s.cursor := rfl

@[simp] theorem State.setInputs_buf (s : State) (l : List EdgeInput) :
    (s.setInputs l).buf = s.buf := rfl

@[simp] theorem State.setInputs_frameValid (s : State) (l : List EdgeInput) :
    (s.setInputs l).frameValid = s.frameValid := rfl

@[simp] theorem State.setInputs_humValid (s : State) (l : List EdgeInput) :
    (s.setInputs l).humValid = s.humValid := rfl

@[simp] theorem State.setInputs_humQ (s : State) (l : List EdgeInput) :
    (s.setInputs l).humQ = s.humQ := rfl

@[simp] theorem State.setInputs_tmpValid (s : State) (l : List EdgeInput) :
    (s.setInputs l).tmpValid = s.tmpValid := rfl

@[simp] theorem State.setInputs_tmpRaw (s : State) (l : List EdgeInput) :
    (s.setInputs l).tmpRaw = s.tmpRaw := rfl

@[simp] theorem State.setInputs_co2Valid (s : State) (l : List EdgeInput) :
    (s.setInputs l).co2Valid = s.co2Valid := rfl

@[simp] theorem State.setInputs_co2Raw (s : State) (l : List EdgeInput) :
    (s.setInputs l).co2Raw = s.co2Raw := rfl

@[simp] theorem State.setInputs_rspData (s : State) (l : List EdgeInput) :
    (s.setInputs l).rspData = s.rspData := rfl

@[simp] theorem State.setInputs_rspErr (s : State) (l : List EdgeInput) :
    (s.setInputs l).rspErr = s.rspErr := rfl

@[simp] theorem State.setInputs_celsiusArith (s : State) (l : List EdgeInput) :
    (s.setInputs l).celsiusArith = s.celsiusArith := rfl

@[simp] theorem State.setInputs_inputs (s : State) (l : List EdgeInput) :
    (s.setInputs l).inputs = l := rfl

/-! ### popInput -/

@[simp] theorem State.popInput_cursor (s : State) :
    (s.popInput).cursor = s.cursor := rfl

@[simp] theorem State.popInput_buf (s : State) :
    (s.popInput).buf = s.buf := rfl

@[simp] theorem State.popInput_frameValid (s : State) :
    (s.popInput).frameValid = s.frameValid := rfl

@[simp] theorem State.popInput_humValid (s : State) :
    (s.popInput).humValid = s.humValid := rfl

@[simp] theorem State.popInput_humQ (s : State) :
    (s.popInput).humQ = s.humQ := rfl

@[simp] theorem State.popInput_tmpValid (s : State) :
    (s.popInput).tmpValid = s.tmpValid := rfl

@[simp] theorem State.popInput_tmpRaw (s : State) :
    (s.popInput).tmpRaw = s.tmpRaw := rfl

@[simp] theorem State.popInput_co2Valid (s : State) :
    (s.popInput).co2Valid = s.co2Valid := rfl

@[simp] theorem State.popInput_co2Raw (s : State) :
    (s.popInput).co2Raw = s.co2Raw := rfl

@[simp] theorem State.popInput_rspData (s : State) :
    (s.popInput).rspData = s.rspData := rfl

@[simp] theorem State.popInput_rspErr (s : State) :
    (s.popInput).rspErr = s.rspErr := rfl

@[simp] theorem State.popInput_celsiusArith (s : State) :
    (s.popInput).celsiusArith = s.celsiusArith := rfl

@[simp] theorem State.popInput_inputs (s : State) :
    (s.popInput).inputs = s.inputs.tail := rfl

/-! ### offer -/

@[simp] theorem State.offer_cursor (s : State) (w : Byte) :
    (s.offer w).cursor = s.cursor := rfl

@[simp] theorem State.offer_buf (s : State) (w : Byte) :
    (s.offer w).buf = s.buf := rfl

@[simp] theorem State.offer_frameValid (s : State) (w : Byte) :
    (s.offer w).frameValid = s.frameValid := rfl

@[simp] theorem State.offer_humValid (s : State) (w : Byte) :
    (s.offer w).humValid = s.humValid := rfl

@[simp] theorem State.offer_humQ (s : State) (w : Byte) :
    (s.offer w).humQ = s.humQ := rfl

@[simp] theorem State.offer_tmpValid (s : State) (w : Byte) :
    (s.offer w).tmpValid = s.tmpValid := rfl

@[simp] theorem State.offer_tmpRaw (s : State) (w : Byte) :
    (s.offer w).tmpRaw = s.tmpRaw := rfl

@[simp] theorem State.offer_co2Valid (s : State) (w : Byte) :
    (s.offer w).co2Valid = s.co2Valid := rfl

@[simp] theorem State.offer_co2Raw (s : State) (w : Byte) :
    (s.offer w).co2Raw = s.co2Raw := rfl

@[simp] theorem State.offer_rspData (s : State) (w : Byte) :
    (s.offer w).rspData = s.rspData := rfl

@[simp] theorem State.offer_rspErr (s : State) (w : Byte) :
    (s.offer w).rspErr = s.rspErr := rfl

@[simp] theorem State.offer_celsiusArith (s : State) (w : Byte) :
    (s.offer w).celsiusArith = s.celsiusArith := rfl

@[simp] theorem State.offer_inputs (s : State) (w : Byte) :
    (s.offer w).inputs = ⟨false, true, w⟩ :: s.inputs := rfl

/-! ### construct -/

@[simp] theorem State.construct_cursor (s : State) :
    (s.construct).cursor = 0#6 := rfl

@[simp] theorem State.construct_buf (s : State) :
    (s.construct).buf = #v[0x00#8, 0x00#8, 0x00#8, 0x00#8, 0x00#8] := rfl

@[simp] theorem State.construct_frameValid (s : State) :
    (s.construct).frameValid = false := rfl

@[simp] theorem State.construct_humValid (s : State) :
    (s.construct).humValid = false := rfl

@[simp] theorem State.construct_humQ (s : State) :
    (s.construct).humQ = 0#10 := rfl

@[simp] theorem State.construct_tmpValid (s : State) :
    (s.construct).tmpValid = false := rfl

@[simp] theorem State.construct_tmpRaw (s : State) :
    (s.construct).tmpRaw = 0#16 := rfl

@[simp] theorem State.construct_co2Valid (s : State) :
    (s.construct).co2Valid = false := rfl

@[simp] theorem State.construct_co2Raw (s : State) :
    (s.construct).co2Raw = 0#16 := rfl

@[simp] theorem State.construct_rspData (s : State) :
    (s.construct).rspData = 0x00000000#32 := rfl

@[simp] theorem State.construct_rspErr (s : State) :
    (s.construct).rspErr = false := rfl

@[simp] theorem State.construct_celsiusArith (s : State) :
    (s.construct).celsiusArith = s.celsiusArith := rfl

@[simp] theorem State.construct_inputs (s : State) :
    (s.construct).inputs = s.inputs := rfl

/-- The response after `Respond`. -/
@[simp] theorem State.respond_response (s : State) (d : Word) (e : Bool) :
    (s.respond d e).response = (d, e) := rfl

/-- A second `Respond` overwrites the first. -/
@[simp] theorem State.respond_respond (s : State) (d d' : Word) (e e' : Bool) :
    (s.respond d e).respond d' e' = s.respond d' e' := rfl

end Sys2Proof.Machine
end

