-- ==== Sys2Proof/Laws/Ops.lean ====
section
/-! SUPPORT. One lemma per shared operation: what it answers, and what it leaves alone. Later proofs cite these and do not
unfold the operations. -/

namespace Sys2Proof.Machine

/-! ### whenLegal: the one way a command completes or faults -/

@[simp] theorem whenLegal_next {s t u : State} :
    whenLegal s t = .next u ↔ s.cursorLegal ∧ t = u := by
  unfold whenLegal; split <;> simp_all

theorem whenLegal_of_legal {s t : State} (h : s.cursorLegal) : whenLegal s t = .next t := if_pos h

theorem whenLegal_of_illegal {s t : State} (h : ¬s.cursorLegal) :
    whenLegal s t = .fault .cursorOutOfRange := if_neg h

/-! ### The buffer -/

theorem setBit_getLsbD (v : Byte) (j : Nat) (b : Bool) (i : Nat) (hj : j < 8) :
    (setBit v j b).getLsbD i = if i = j then b else v.getLsbD i := by
  unfold setBit
  rcases Decidable.em (i < 8) with hi | hi
  · have e : (1#8 <<< j).getLsbD i = decide (i = j) := by
      simp only [BitVec.getLsbD_shiftLeft, BitVec.getLsbD_one]
      by_cases h : i = j <;> simp [h] <;> omega
    have e' : ¬i = j → (i < j ∨ ¬i - j = 0) := by omega
    cases b <;> by_cases h : i = j <;> simp_all
  · have : i ≠ j := by omega
    rw [BitVec.getLsbD_of_ge _ _ (by omega), BitVec.getLsbD_of_ge _ _ (by omega)]
    simp [this]

/-- Byte `i` after `BufWriteBit`. -/
theorem bufWriteBit_getElem (buf : FrameBuf) (k : Nat) (b : Bool) (i : Nat) (hi : i < 5) :
    (bufWriteBit buf k b)[i] = if i = k / 8 then setBit buf[i] (7 - k % 8) b else buf[i] := by
  unfold bufWriteBit
  by_cases h : k / 8 = i
  · subst h; simp [hi]
  · simp [h, Ne.symm h]

/-- `bufBit` reads bit `7 - k mod 8` of byte `k div 8`. -/
theorem bufBit_eq (buf : FrameBuf) (k : Nat) (hk : k < 40) :
    bufBit buf k = (buf[k / 8]'(by omega)).getLsbD (7 - k % 8) := by
  unfold bufBit
  rw [Vector.getElem?_eq_getElem (by omega)]; rfl

/-- The bit at a position after `BufWriteBit`. -/
theorem bufBit_bufWriteBit (buf : FrameBuf) (k k' : Nat) (b : Bool) (hk : k < 40) (hk' : k' < 40) :
    bufBit (bufWriteBit buf k b) k' = if k' = k then b else bufBit buf k' := by
  rw [bufBit_eq _ _ hk', bufBit_eq _ _ hk', bufWriteBit_getElem]
  by_cases h : k' / 8 = k / 8
  · rw [if_pos h, setBit_getLsbD _ _ _ _ (by omega)]
    by_cases h2 : k' = k
    · simp [h2]
    · have : 7 - k' % 8 ≠ 7 - k % 8 := by omega
      simp [h2, this]
  · have : k' ≠ k := by rintro rfl; exact h rfl
    simp [h, this]

/-- Two buffers with the same bits are the same. -/
theorem buf_ext {u v : FrameBuf} (h : ∀ k, k < 40 → bufBit u k = bufBit v k) : u = v := by
  apply Vector.ext
  intro i hi
  apply BitVec.eq_of_getLsbD_eq
  intro j hj
  have hk := h (8 * i + (7 - j)) (by omega)
  rw [bufBit_eq _ _ (by omega), bufBit_eq _ _ (by omega)] at hk
  have e1 : (8 * i + (7 - j)) / 8 = i := by omega
  have e2 : 7 - (8 * i + (7 - j)) % 8 = j := by omega
  simpa only [e1, e2] using hk

/-- Position 39 lies in byte 4: the bytes that validation reads stay. -/
theorem bufWriteBit_last_getElem (buf : FrameBuf) (b : Bool) (i : Nat) (hi : i < 4) :
    (bufWriteBit buf 39 b)[i] = buf[i] := by
  rw [bufWriteBit_getElem _ _ _ _ (by omega), if_neg (by omega)]

/-! ### Operands and response words -/

theorem rawValue_toNat (buf : FrameBuf) :
    (rawValue buf).toNat = buf[1].toNat * 256 + buf[2].toNat := by
  unfold rawValue
  rw [BitVec.toNat_append, ← Nat.shiftLeft_add_eq_or_of_lt (by omega)]
  simp [Nat.shiftLeft_eq]

theorem rawValue_eq (buf : FrameBuf) :
    rawValue buf = BitVec.ofNat 16 (buf[1].toNat * 256 + buf[2].toNat) := by
  rw [← rawValue_toNat]; simp

theorem bitWord_eq (b : Bool) : bitWord b = if b then 0x00000001#32 else 0x00000000#32 := by
  cases b <;> rfl

theorem valueWord_of_valid {v : Bool} (h : v = true) (x : Binary32) : valueWord v x = bits32 x := by
  rw [h]; rfl

theorem valueWord_of_invalid {v : Bool} (h : v = false) (x : Binary32) : valueWord v x = 0x00000000#32 := by
  rw [h]; rfl

theorem readingWord_eq (v : Bool) (x : BitVec 16) :
    readingWord v x = BitVec.ofNat 32 (v.toNat * 65536 + x.toNat) := by
  apply BitVec.eq_of_toNat_eq
  unfold readingWord
  change BitVec.toNat (0#15 ++ BitVec.ofBool v ++ x) = _
  rw [BitVec.toNat_append, ← Nat.shiftLeft_add_eq_or_of_lt (by omega), BitVec.toNat_append]
  cases v <;> simp [Nat.shiftLeft_eq] <;> omega

/-! ### Validation and dispatch -/

theorem dispatchTag_cases (tag : Byte) (raw : BitVec 16) (s : State) :
    (tag = Config.tagHum ∧ dispatchTag tag raw s = s.setHum (humidityOf raw)) ∨
    (tag = Config.tagTemp ∧ dispatchTag tag raw s = s.setTmp raw) ∨
    (tag = Config.tagCo2 ∧ dispatchTag tag raw s = s.setCo2 raw) ∨
    (tag ≠ Config.tagHum ∧ tag ≠ Config.tagTemp ∧ tag ≠ Config.tagCo2 ∧ dispatchTag tag raw s = s) := by
  unfold dispatchTag
  split
  · exact .inl ⟨‹_›, rfl⟩
  · split
    · exact .inr (.inl ⟨‹_›, rfl⟩)
    · split
      · exact .inr (.inr (.inl ⟨‹_›, rfl⟩))
      · exact .inr (.inr (.inr ⟨‹_›, ‹_›, ‹_›, rfl⟩))

/-- Dispatch writes readings only. -/
theorem dispatchTag_frame (tag : Byte) (raw : BitVec 16) (s : State) :
    (dispatchTag tag raw s).cursor = s.cursor ∧ (dispatchTag tag raw s).buf = s.buf ∧
    (dispatchTag tag raw s).frameValid = s.frameValid ∧
    (dispatchTag tag raw s).celsiusArith = s.celsiusArith ∧ (dispatchTag tag raw s).inputs = s.inputs := by
  rcases dispatchTag_cases tag raw s with ⟨_, h⟩ | ⟨_, h⟩ | ⟨_, h⟩ | ⟨_, _, _, h⟩ <;> rw [h] <;> simp

/-- The checksum test in numbers. -/
theorem checksumOk_iff (buf : FrameBuf) :
    checksumOk buf = true ↔ buf[3].toNat = (buf[0].toNat + buf[1].toNat + buf[2].toNat) % 256 := by
  unfold checksumOk checksum
  simp [← BitVec.toNat_inj]

/-- The bit a completing STORE writes takes no part in the checksum. -/
theorem checksumOk_bufWriteBit_last (buf : FrameBuf) (b : Bool) :
    checksumOk (bufWriteBit buf 39 b) = checksumOk buf := by
  simp [checksumOk, bufWriteBit_last_getElem]

theorem validateAndApply_of_ok {s : State} (h : checksumOk s.buf = true) :
    validateAndApply s = dispatchTag s.buf[0] (rawValue s.buf) (s.setFrameValid true) := if_pos h

theorem validateAndApply_of_bad {s : State} (h : checksumOk s.buf = false) :
    validateAndApply s = s.setFrameValid false := if_neg (by simp [h])

/-! ### STORE: ordinary, completing, rejected -/

theorem storeBit_accumulating {s : State} (b : Bool) (h : s.cursor.toNat < 39) :
    storeBit b s = (s.writeBit s.cursor.toNat b).setCursor (s.cursor + 1#6) := by
  have h1 : (s.cursor + 1#6).toNat = s.cursor.toNat + 1 := by
    rw [BitVec.toNat_add]; simp; omega
  unfold storeBit
  rw [if_pos (by simp; omega), if_neg (by simp [h1]; omega)]

theorem storeBit_completing {s : State} (b : Bool) (h : s.cursor.toNat = 39) :
    storeBit b s = validateAndApply ((s.writeBit 39 b).setCursor 40#6) := by
  have h1 : s.cursor = 39#6 := by apply BitVec.eq_of_toNat_eq; simpa using h
  unfold storeBit
  simp [h1]

theorem storeBit_complete {s : State} (b : Bool) (h : s.cursor.toNat = 40) : storeBit b s = s :=
  if_neg (by simp [h])

/-! ### exec, accept and step: what a next state is -/

/-- What a command does to a legal state. -/
def commandEffect (i : Instr) (s : State) : State :=
  match i with
  | .store b => (storeBit b s).respond 0x00000000#32 false
  | .freset => (s.clearBuf.setCursor 0#6).respond 0x00000000#32 false
  | .readmore => s.respond (bitWord (decide (s.cursor.toNat < Config.frameBits))) false
  | .isvalid => s.respond (bitWord s.frameValid) false
  | .getvalueHum => s.respond (valueWord s.humValid (f32 (intFrac s.humQ.toNat))) false
  | .getvalueTk => s.respond (valueWord s.tmpValid (f32 (kelvinFrac s.tmpRaw))) false
  | .getvalueTc => s.respond (valueWord s.tmpValid (celsius s.celsiusArith s.tmpRaw)) false
  | .getvalueCo2 => s.respond (valueWord s.co2Valid (f32 (intFrac s.co2Raw.toNat))) false
  | .getreadingHum => s.respond (readingWord s.humValid (s.humQ.setWidth 16)) false
  | .getreadingTemp => s.respond (readingWord s.tmpValid s.tmpRaw) false
  | .getreadingCo2 => s.respond (readingWord s.co2Valid s.co2Raw) false

theorem exec_eq (i : Instr) (s : State) : exec i s = whenLegal s (commandEffect i s) := by
  cases i <;> rfl

theorem exec_of_legal {i : Instr} {s : State} (h : s.cursorLegal) :
    exec i s = .next (commandEffect i s) := by
  rw [exec_eq, whenLegal_of_legal h]

theorem exec_next {i : Instr} {s t : State} (h : exec i s = .next t) :
    s.cursorLegal ∧ t = commandEffect i s := by
  rw [exec_eq, whenLegal_next] at h
  exact ⟨h.1, h.2.symm⟩

/-- Everything a STORE can answer as a next state: the ordinary bit, the completion with a bad or a good checksum, and the
rejected bit. -/
theorem store_cases {b : Bool} {s t : State} (h : exec (.store b) s = .next t) :
    (s.cursor.toNat < 39 ∧
      t = ((s.writeBit s.cursor.toNat b).setCursor (s.cursor + 1#6)).respond 0x00000000#32 false) ∨
    (s.cursor.toNat = 39 ∧ checksumOk s.buf = false ∧
      t = (((s.writeBit 39 b).setCursor 40#6).setFrameValid false).respond 0x00000000#32 false) ∨
    (s.cursor.toNat = 39 ∧ checksumOk s.buf = true ∧
      t = (dispatchTag s.buf[0] (rawValue s.buf)
        (((s.writeBit 39 b).setCursor 40#6).setFrameValid true)).respond 0x00000000#32 false) ∨
    (s.cursor.toNat = 40 ∧ t = s.respond 0x00000000#32 false) := by
  obtain ⟨hl, rfl⟩ := exec_next h
  have hl : s.cursor.toNat ≤ 40 := hl
  have hbuf : ((s.writeBit 39 b).setCursor 40#6).buf = bufWriteBit s.buf 39 b := rfl
  rcases (by omega : s.cursor.toNat < 39 ∨ s.cursor.toNat = 39 ∨ s.cursor.toNat = 40) with hc | hc | hc
  · exact .inl ⟨hc, by simp only [commandEffect, storeBit_accumulating b hc]⟩
  · cases hk : checksumOk s.buf
    · refine .inr (.inl ⟨hc, rfl, ?_⟩)
      simp only [commandEffect, storeBit_completing b hc]
      rw [validateAndApply_of_bad]
      rw [hbuf, checksumOk_bufWriteBit_last, hk]
    · refine .inr (.inr (.inl ⟨hc, rfl, ?_⟩))
      simp only [commandEffect, storeBit_completing b hc]
      rw [validateAndApply_of_ok]
      · simp only [hbuf, rawValue, bufWriteBit_last_getElem _ _ _ (by omega : 0 < 4),
          bufWriteBit_last_getElem _ _ _ (by omega : 1 < 4), bufWriteBit_last_getElem _ _ _ (by omega : 2 < 4)]
      · rw [hbuf, checksumOk_bufWriteBit_last, hk]
  · exact .inr (.inr (.inr ⟨hc, by simp only [commandEffect, storeBit_complete b hc]⟩))

/-- What an accepted word does to a legal state. -/
def wordEffect (w : Byte) (s : State) : State :=
  match decode w with
  | .ok i => commandEffect i s
  | .error _ => s.respond 0x00000000#32 true

theorem accept_eq (w : Byte) (s : State) : accept w s = whenLegal s (wordEffect w s) := by
  unfold accept wordEffect
  cases decode w with
  | ok i => exact exec_eq i s
  | error e => rfl

/-- A word that decodes is performed as its command. -/
theorem accept_of_decode {w : Byte} {i : Instr} (h : decode w = .ok i) (s : State) : accept w s = exec i s := by
  unfold accept
  rw [h]

/-- A reserved word is performed as the reserved words are. -/
theorem accept_of_refused {w : Byte} {e : DecodeError} (h : decode w = .error e) (s : State) :
    accept w s = execReserved s := by
  unfold accept
  rw [h]

/-- A query's effect is one `Respond`. -/
theorem commandEffect_query {i : Instr} (h : isQuery i = true) (s : State) :
    ∃ d, commandEffect i s = s.respond d false := by
  cases i <;> first | (simp [isQuery] at h; done) | exact ⟨_, rfl⟩

/-- Everything a step can answer as a next state. -/
theorem step_cases {s t : State} (h : step s = .next t) :
    (s.nextAction = .construct ∧ t = s.popInput.construct) ∨
    (∃ w, s.nextAction = .command w ∧ s.cursorLegal ∧ t = wordEffect w s.popInput) ∨
    (s.nextAction = .idle ∧ s.cursorLegal ∧ t = s.popInput) := by
  unfold step at h
  split at h
  · exact .inl ⟨‹_›, by cases h; rfl⟩
  · rw [accept_eq, whenLegal_next] at h
    exact .inr (.inl ⟨_, ‹_›, h.1, h.2.symm⟩)
  · rw [whenLegal_next] at h
    exact .inr (.inr ⟨‹_›, h.1, h.2.symm⟩)

/-! ### The host's schedule plays no part in a command -/

theorem dispatchTag_setInputs (tag : Byte) (raw : BitVec 16) (l : List EdgeInput) (s : State) :
    dispatchTag tag raw (s.setInputs l) = (dispatchTag tag raw s).setInputs l := by
  unfold dispatchTag; split_ifs <;> rfl

theorem validateAndApply_setInputs (l : List EdgeInput) (s : State) :
    validateAndApply (s.setInputs l) = (validateAndApply s).setInputs l := by
  unfold validateAndApply
  have e : ∀ v, (s.setInputs l).setFrameValid v = (s.setFrameValid v).setInputs l := fun v => rfl
  simp only [State.setInputs_buf, e, dispatchTag_setInputs]
  split_ifs <;> rfl

theorem storeBit_setInputs (b : Bool) (l : List EdgeInput) (s : State) :
    storeBit b (s.setInputs l) = (storeBit b s).setInputs l := by
  unfold storeBit
  have e : ∀ k c, ((s.setInputs l).writeBit k b).setCursor c = ((s.writeBit k b).setCursor c).setInputs l :=
    fun _ _ => rfl
  simp only [State.setInputs_cursor, e, validateAndApply_setInputs]
  split_ifs <;> rfl

theorem wordEffect_setInputs (w : Byte) (l : List EdgeInput) (s : State) :
    wordEffect w (s.setInputs l) = (wordEffect w s).setInputs l := by
  unfold wordEffect
  cases decode w with
  | error e => rfl
  | ok i =>
    cases i with
    | store b => simp only [commandEffect, storeBit_setInputs]; rfl
    | _ => rfl

/-! ### Sequences -/

@[simp] theorem issue_nil (s : State) : issue [] s = .next s := rfl

theorem issue_cons_next {i : Instr} {is : List Instr} {s t : State} (h : exec i s = .next t) :
    issue (i :: is) s = issue is t := by
  simp [issue, h]

theorem issue_append {is js : List Instr} {s t : State} (h : issue is s = .next t) :
    issue (is ++ js) s = issue js t := by
  induction is generalizing s with
  | nil => simp_all
  | cons i is ih =>
    cases hi : exec i s with
    | next u => rw [issue_cons_next hi] at h; rw [List.cons_append, issue_cons_next hi]; exact ih h
    | fault f => simp [issue, hi] at h
    | refused r => simp [issue, hi] at h

theorem run_cons_next {w : Byte} {ws : List Byte} {s t : State} {o : Observation}
    (h : accept w s = .next t) (ho : run ws t = .next o) :
    run (w :: ws) s = .next ⟨t.response :: o.responses, o.final⟩ := by
  simp [run, h, ho]

/-- The only way a run of at least one word ends. -/
theorem run_cons_cases {w : Byte} {ws : List Byte} {s : State} {o : Observation}
    (h : run (w :: ws) s = .next o) :
    ∃ t p, accept w s = .next t ∧ run ws t = .next p ∧ o = ⟨t.response :: p.responses, p.final⟩ := by
  simp only [run] at h
  cases ha : accept w s with
  | next t =>
    rw [ha] at h
    cases hr : run ws t with
    | next p => simp only [hr] at h; exact ⟨t, p, rfl, hr, by cases h; rfl⟩
    | fault f => simp [hr] at h
    | refused r => simp [hr] at h
  | fault f => simp [ha] at h
  | refused r => simp [ha] at h

/-- The first of several steps of a machine, peeled off. -/
theorem coreRun_succ {M : Host.Core} {k : Nat} {s t : M.State} (h : M.step s = .next t) :
    M.run (k + 1) s = M.run k t := by
  simp [Host.Core.run, h]

end Sys2Proof.Machine
end

