-- ==== Sys2Proof/Laws/PerInstr.lean ====
section
/-! SUPPORT. Statements made per instruction, each about the instruction as syntax. -/

namespace Sys2Proof.Laws.EncodedWordDefined

/-- The word of a command is one the opcode map defines, and none of the reserved ranges holds it (R41, R47). -/
def Statement (i : Instr) : Prop := wordDefined (encode i) = true ∧ wordReserved (encode i) = false

theorem store (b : Bool) : Statement (.store b) := by cases b <;> exact ⟨by decide, by decide⟩
theorem freset : Statement .freset := ⟨by decide, by decide⟩
theorem readmore : Statement .readmore := ⟨by decide, by decide⟩
theorem isvalid : Statement .isvalid := ⟨by decide, by decide⟩
theorem getvalueHum : Statement .getvalueHum := ⟨by decide, by decide⟩
theorem getvalueTk : Statement .getvalueTk := ⟨by decide, by decide⟩
theorem getvalueTc : Statement .getvalueTc := ⟨by decide, by decide⟩
theorem getvalueCo2 : Statement .getvalueCo2 := ⟨by decide, by decide⟩
theorem getreadingHum : Statement .getreadingHum := ⟨by decide, by decide⟩
theorem getreadingTemp : Statement .getreadingTemp := ⟨by decide, by decide⟩
theorem getreadingCo2 : Statement .getreadingCo2 := ⟨by decide, by decide⟩

end Sys2Proof.Laws.EncodedWordDefined
end

