-- ==== Sys2Proof/Tests/Slice0.lean ====
section
/-! SUPPORT. Small tests, each about one step or one word, and a witness for every statement that has hypotheses. Expected
values come from the spec: the opcode map (30_encoding.md R41), the pseudo-command example (R50) and the vectors of
95_test_vectors.md, whose section each test names. -/

namespace Sys2Proof.Tests

open Sys2Proof.Machine

/-! ### Small states -/

/-- A state with the cursor at `c`. -/
def atCursor (c : BitVec 6) : State := { State.reset with cursor := c }

/-- A frame with its first four bytes delivered and one bit to come. -/
def lastBit (b0 b1 b2 b3 : Byte) : State :=
  { State.reset with cursor := 39#6, buf := #v[b0, b1, b2, b3, 0x00#8] }

/-- A completed state that holds a value in each reading, with the flag set. -/
def full : State :=
  { State.reset with
    cursor := 40#6, buf := #v[0x41#8, 0x13#8, 0x88#8, 0xDC#8, 0x00#8], frameValid := true,
    humValid := true, humQ := 50#10, tmpValid := true, tmpRaw := 400#16, co2Valid := true, co2Raw := 1000#16 }

/-- `full` with one raw temperature. -/
def tempIs (m : CelsiusArith) (raw : BitVec 16) : State := { full with celsiusArith := m, tmpRaw := raw }

/-- The response of a command. -/
def answer (i : Instr) (s : State) : Option (Word × Bool) := (nextOf (exec i s)).map State.response

/-- A next state with a decidable property, found by evaluation. -/
theorem exists_next {o : Host.Outcome State Fault Refusal} (p : State → Bool)
    (h : (nextOf o).any p = true) : ∃ t, o = .next t ∧ p t = true := by
  cases o with
  | next t => exact ⟨t, rfl, h⟩
  | fault f => simp [nextOf] at h
  | refused r => simp [nextOf] at h

/-- A next state, found by evaluation. -/
theorem some_next {o : Host.Outcome State Fault Refusal} (h : (nextOf o).isSome = true) : ∃ t, o = .next t := by
  cases o with
  | next t => exact ⟨t, rfl⟩
  | fault f => simp [nextOf] at h
  | refused r => simp [nextOf] at h

/-! ### Well-formedness and decoding: R41 to R44, R47 -/

theorem test_store_arg_refused : wordDefined 0x02#8 = false ∧ wordDefined 0x08#8 = false := by decide
theorem test_no_arg_refused :
    wordDefined 0x11#8 = false ∧ wordDefined 0x21#8 = false ∧ wordDefined 0x38#8 = false := by decide
theorem test_getvalue_arg_refused : wordDefined 0x44#8 = false ∧ wordDefined 0x48#8 = false := by decide
theorem test_getreading_arg_refused : wordDefined 0x53#8 = false ∧ wordDefined 0x54#8 = false := by decide
theorem test_op_refused : wordDefined 0x60#8 = false ∧ wordDefined 0xFF#8 = false := by decide
theorem test_defined_is_not_reserved : ∀ w : Byte, wordDefined w = !wordReserved w := by decide
theorem test_instr_wellFormed : (Instr.store true).wellFormed = true := by decide

theorem test_decode_store0 : decode 0b00000000#8 = .ok (.store false) := by decide
theorem test_decode_store1 : decode 0b00000001#8 = .ok (.store true) := by decide
theorem test_decode_freset : decode 0b00010000#8 = .ok .freset := by decide
theorem test_decode_readmore : decode 0b00100000#8 = .ok .readmore := by decide
theorem test_decode_isvalid : decode 0b00110000#8 = .ok .isvalid := by decide
theorem test_decode_getvalueHum : decode 0b01000000#8 = .ok .getvalueHum := by decide
theorem test_decode_getvalueTk : decode 0b01000001#8 = .ok .getvalueTk := by decide
theorem test_decode_getvalueTc : decode 0b01000010#8 = .ok .getvalueTc := by decide
theorem test_decode_getvalueCo2 : decode 0b01000011#8 = .ok .getvalueCo2 := by decide
theorem test_decode_getreadingHum : decode 0b01010000#8 = .ok .getreadingHum := by decide
theorem test_decode_getreadingTemp : decode 0b01010001#8 = .ok .getreadingTemp := by decide
theorem test_decode_getreadingCo2 : decode 0b01010010#8 = .ok .getreadingCo2 := by decide
theorem test_decode_reserved_arg : decode 0x02#8 = .error .reservedArg ∧ decode 0x53#8 = .error .reservedArg ∧
    decode 0x1F#8 = .error .reservedArg ∧ decode 0x4F#8 = .error .reservedArg := by decide
theorem test_decode_reserved_op : decode 0x60#8 = .error .reservedOp ∧ decode 0xFF#8 = .error .reservedOp := by decide
theorem test_decodeTableWord : decodeTableWord 8 0x41 = some .getvalueTk ∧ decodeTableWord 8 0x60 = none := by decide

/-! ### STORE: 95_test_vectors.md sections 2.1 to 2.3 -/

/-- Section 2.1: from "all start", STORE 1 gives cursor 1 and buf 80 00 00 00 00. -/
theorem test_store_first_bit : nextOf (exec (.store true) State.reset) =
    some { State.reset with cursor := 1#6, buf := #v[0x80#8, 0#8, 0#8, 0#8, 0#8] } := by decide

/-- Section 2.1: cursor 7 with buf[0] = 0xFE, STORE 1 gives cursor 8 and buf[0] = 0xFF; and R31's "clears": a set bit at
the position is cleared by STORE 0. -/
theorem test_store_set_and_clear :
    (nextOf (exec (.store true) { atCursor 7#6 with buf := #v[0xFE#8, 0#8, 0#8, 0#8, 0#8] })).map (fun t => (t.cursor, t.buf[0]))
      = some (8#6, 0xFF#8) ∧
    bufWriteBit #v[0xFF#8, 0xFF#8, 0xFF#8, 0xFF#8, 0xFF#8] 9 false
      = #v[0xFF#8, 0xBF#8, 0xFF#8, 0xFF#8, 0xFF#8] := by decide

/-- Section 2.2: the sum 765 reduces to 0xFD; the temperature frame's checksum is 0xD3. -/
theorem test_checksum : checksum 0xFF#8 0xFF#8 0xFF#8 = 0xFD#8 ∧ checksum 0x42#8 0x01#8 0x90#8 = 0xD3#8 ∧
    checksum 0x50#8 0x03#8 0xE8#8 = 0x3B#8 := by decide

/-- Section 1, S2 and S6, and section 2.2: completions with a good and a bad checksum. -/
theorem test_completion :
    (nextOf (exec (.store true) (lastBit 0x41#8 0x13#8 0xBA#8 0x0E#8))).map
      (fun t => (t.cursor, t.buf[4], t.frameValid, t.humValid, t.humQ)) = some (40#6, 0x01#8, true, true, 50#10) ∧
    (nextOf (exec (.store false) { lastBit 0x41#8 0x00#8 0x63#8 0x00#8 with humValid := true, humQ := 50#10 })).map
      (fun t => (t.frameValid, t.humValid, t.humQ)) = some (false, true, 50#10) := by decide

/-- Section 2.3: tags 0x42, 0x50, and 0xC1, which is 0x41 with bit 7 set. -/
theorem test_dispatch :
    (nextOf (exec (.store false) (lastBit 0x42#8 0xFF#8 0xFF#8 0x40#8))).map (fun t => (t.tmpValid, t.tmpRaw))
      = some (true, 0xFFFF#16) ∧
    (nextOf (exec (.store false) (lastBit 0x50#8 0x03#8 0xE8#8 0x3B#8))).map (fun t => (t.co2Valid, t.co2Raw))
      = some (true, 1000#16) ∧
    (nextOf (exec (.store false) (lastBit 0xC1#8 0x13#8 0x88#8 0x5C#8))).map
      (fun t => (t.frameValid, t.humValid, t.tmpValid, t.co2Valid)) = some (true, false, false, false) := by decide

/-- Section 2.1, last rows: STORE at cursor 40 changes only the response. -/
theorem test_store_rejected : nextOf (exec (.store false) full) = some full := by decide

/-! ### FRESET and status: sections 2.5, 2.6 -/

theorem test_freset : nextOf (exec .freset full) =
    some { full with cursor := 0#6, buf := #v[0#8, 0#8, 0#8, 0#8, 0#8] } := by decide
theorem test_readmore : answer .readmore State.reset = some (1#32, false) ∧
    answer .readmore (atCursor 39#6) = some (1#32, false) ∧ answer .readmore full = some (0#32, false) := by decide
theorem test_isvalid : answer .isvalid State.reset = some (0#32, false) ∧ answer .isvalid full = some (1#32, false) := by decide

/-! ### Readouts: sections 1, 2.3, 2.4 -/

theorem test_getvalueHum : answer .getvalueHum full = some (0x42480000#32, false) ∧
    answer .getvalueHum { full with humQ := 655#10 } = some (0x4423C000#32, false) ∧
    answer .getvalueHum { full with humValid := false } = some (0#32, false) := by decide
theorem test_getvalueTk : answer .getvalueTk full = some (0x41C80000#32, false) ∧
    answer .getvalueTk (tempIs .exactRne 1#16) = some (0x3D800000#32, false) ∧
    answer .getvalueTk (tempIs .exactRne 0xFFFF#16) = some (0x457FFF00#32, false) := by decide
theorem test_getvalueTc_two_step :
    answer .getvalueTc (tempIs .b32TwoStep 400#16) = some (0xC3782666#32, false) ∧
    answer .getvalueTc (tempIs .b32TwoStep 2323#16) = some (0xC2FFECCC#32, false) ∧
    answer .getvalueTc (tempIs .b32TwoStep 4370#16) = some (0xBCCCC000#32, false) ∧
    answer .getvalueTc (tempIs .b32TwoStep 4800#16) = some (0x41D6CCD0#32, false) ∧
    answer .getvalueTc (tempIs .b32TwoStep 0xFFFF#16) = some (0x456EEC9A#32, false) := by decide
theorem test_getvalueTc_exact :
    answer .getvalueTc (tempIs .exactRne 400#16) = some (0xC3782666#32, false) ∧
    answer .getvalueTc (tempIs .exactRne 2323#16) = some (0xC2FFECCD#32, false) ∧
    answer .getvalueTc (tempIs .exactRne 4370#16) = some (0xBCCCCCCD#32, false) ∧
    answer .getvalueTc (tempIs .exactRne 6418#16) = some (0x42FFF333#32, false) ∧
    answer .getvalueTc (tempIs .exactRne 6419#16) = some (0x4300099A#32, false) := by decide
theorem test_getvalueCo2 : answer .getvalueCo2 full = some (0x447A0000#32, false) ∧
    answer .getvalueCo2 { full with co2Raw := 0xFFFF#16 } = some (0x477FFF00#32, false) := by decide
theorem test_getreadingHum : answer .getreadingHum full = some (0x00010032#32, false) := by decide
theorem test_getreadingTemp : answer .getreadingTemp full = some (0x00010190#32, false) := by decide
theorem test_getreadingCo2 : answer .getreadingCo2 { full with co2Raw := 0xFFFF#16 } = some (0x0001FFFF#32, false) := by decide

/-- R95 and G2: C273, a tie that goes to the even neighbour, and the smallest subnormal. -/
theorem test_f32 : bits32 (f32 ⟨27315, 100⟩) = 0x43889333#32 ∧ bits32 (f32 ⟨2 ^ 24 + 1, 1⟩) = 0x4B800000#32 ∧
    bits32 (f32 ⟨-1, 2 ^ 149⟩) = 0x80000001#32 := by decide

/-! ### The step: sections 2.7, 2.8 -/

theorem test_reserved : (nextOf (step (full.withFetchWord 8 0x53))).map (fun t => (t.response, t.setInputs full.inputs))
    = some ((0#32, true), { full with rspErr := true }) := by decide
theorem test_reset_priority : nextOf (step { full with inputs := [⟨true, true, 0x01#8⟩] }) = some State.reset := by decide
theorem test_step_from_reset : (nextOf (step (State.reset.withFetchWord 8 0x20))).map State.response
    = some (1#32, false) := by decide

/-! ### Sequences and text: 30_encoding.md R49, R50; 95_test_vectors.md section 3 -/

theorem test_sendByte : (sendByte 0x42#8).map encode
    = [0x00#8, 0x01#8, 0x00#8, 0x00#8, 0x00#8, 0x00#8, 0x01#8, 0x00#8] := by decide

/-- Section 3, the encoding of [42 11 12 65 00]. -/
theorem test_sendFrame : (sendFrameCk 0x42#8 0x11#8 0x12#8 0x00#8).map (fun i => (encode i).toNat) =
    [0, 1, 0, 0, 0, 0, 1, 0, 0, 0, 0, 1, 0, 0, 0, 1, 0, 0, 0, 1, 0, 0, 1, 0, 0, 1, 1, 0, 0, 1, 0, 1,
     0, 0, 0, 0, 0, 0, 0, 0] := by decide

theorem test_assemble : assemble [['s', 't', 'o', 'r', 'e', ' ', '1', ' ', ';', ' ', 'x'], [],
      ['G', 'E', 'T', 'V', 'A', 'L', 'U', 'E', ' ', 'T', 'K'], ['.', 'C', 'M', 'D', ' ', '0', 'x', 'F', 'F']]
    = .ok [0x01#8, 0x41#8, 0xFF#8] := by decide
theorem test_assemble_refuses : assembleLine ['S', 'T', 'O', 'R', 'E', ' ', '2'] = .error .badOperand ∧
    assembleLine ['N', 'O', 'P'] = .error .unknownMnemonic ∧
    assembleLine ['F', 'R', 'E', 'S', 'E', 'T', ' ', '1'] = .error .wrongOperandCount := by decide
theorem test_assemble_sendframe :
    (assembleLine ['S', 'E', 'N', 'D', 'F', 'R', 'A', 'M', 'E', ' ', '1', ',', '2', ' ', ',', '0', 'x', '3', ',', '4', ',', '2', '5', '5'])
    = .ok ((sendFrame 1#8 2#8 3#8 4#8 255#8).map encode) := by decide

/-! ### Witnesses: states that meet the hypotheses of the statements, at the ends of their ranges -/

theorem witness_BufWriteBitSetsOneBitOnly : (0 : Nat) < 40 ∧ (39 : Nat) < 40 := by decide
theorem witness_StoreFillsTheNextPosition :
    State.reset.cursor.toNat < 39 ∧ (atCursor 38#6).cursor.toNat < 39 := by decide
theorem witness_MismatchedFrameTouchesNoReading :
    let s := lastBit 0x42#8 0x01#8 0x90#8 0xD4#8
    s.cursor.toNat = 39 ∧ s.buf[3].toNat ≠ (s.buf[0].toNat + s.buf[1].toNat + s.buf[2].toNat) % 256 := by decide
theorem witness_HumidityFrameStoresTruncatedQuotient :
    let s := lastBit 0x41#8 0xFF#8 0xFF#8 0x3F#8
    s.cursor.toNat = 39 ∧ s.buf[3].toNat = (s.buf[0].toNat + s.buf[1].toNat + s.buf[2].toNat) % 256 ∧
      s.buf[0] = 0x41#8 := by decide
theorem witness_TemperatureFrameStoresRawValue :
    let s := lastBit 0x42#8 0xFF#8 0xFF#8 0x40#8
    s.cursor.toNat = 39 ∧ s.buf[3].toNat = (s.buf[0].toNat + s.buf[1].toNat + s.buf[2].toNat) % 256 ∧
      s.buf[0] = 0x42#8 := by decide
theorem witness_Co2FrameStoresRawValue :
    let s := lastBit 0x50#8 0xFF#8 0xFF#8 0x4E#8
    s.cursor.toNat = 39 ∧ s.buf[3].toNat = (s.buf[0].toNat + s.buf[1].toNat + s.buf[2].toNat) % 256 ∧
      s.buf[0] = 0x50#8 := by decide
theorem witness_UnrecognizedTagUpdatesNoReading :
    let s := lastBit 0x99#8 0x00#8 0x01#8 0x9A#8
    s.cursor.toNat = 39 ∧ s.buf[3].toNat = (s.buf[0].toNat + s.buf[1].toNat + s.buf[2].toNat) % 256 ∧
      s.buf[0] ≠ 0x41#8 ∧ s.buf[0] ≠ 0x42#8 ∧ s.buf[0] ≠ 0x50#8 := by decide
theorem witness_StoreInFrameCompleteIsRejected : full.cursor.toNat = 40 := by decide
theorem witness_StoreFrame :
    (∃ t, exec (.store true) (atCursor 38#6) = .next t) ∧ (atCursor 38#6).cursor.toNat ≠ 39 ∧
    (∃ t, exec (.store true) full = .next t) ∧ full.cursor.toNat = 40 :=
  ⟨⟨_, exec_of_legal (by decide)⟩, by decide, ⟨_, exec_of_legal (by decide)⟩, by decide⟩
theorem witness_EachReadingNeedsItsOwnValidFrame :
    (∃ t, exec (.store false) (lastBit 0x41#8 0x13#8 0x88#8 0xDC#8) = .next t ∧
      decide ((t.humValid, t.humQ) ≠ (false, 0#10)) = true) ∧
    (∃ t, exec (.store false) (lastBit 0x42#8 0x01#8 0x90#8 0xD3#8) = .next t ∧
      decide ((t.tmpValid, t.tmpRaw) ≠ (false, 0#16)) = true) ∧
    (∃ t, exec (.store false) (lastBit 0x50#8 0x03#8 0xE8#8 0x3B#8) = .next t ∧
      decide ((t.co2Valid, t.co2Raw) ≠ (false, 0#16)) = true) :=
  ⟨exists_next (fun t => decide ((t.humValid, t.humQ) ≠ (false, 0#10))) (by decide),
    exists_next (fun t => decide ((t.tmpValid, t.tmpRaw) ≠ (false, 0#16))) (by decide),
    exists_next (fun t => decide ((t.co2Valid, t.co2Raw) ≠ (false, 0#16))) (by decide)⟩
theorem witness_OnlyCompletingStoreWritesFrameValid :
    ∃ t, exec (.store false) (lastBit 0x99#8 0x00#8 0x01#8 0x9A#8) = .next t ∧
      decide (t.frameValid ≠ (lastBit 0x99#8 0x00#8 0x01#8 0x9A#8).frameValid) = true :=
  exists_next (fun t => decide (t.frameValid ≠ (lastBit 0x99#8 0x00#8 0x01#8 0x9A#8).frameValid)) (by decide)
theorem witness_PhaseTransitions :
    (∃ t, exec (.store true) (atCursor 38#6) = .next t ∧ decide (phase t = .accumulating 39) = true) ∧
    (∃ t, exec (.store true) (atCursor 39#6) = .next t ∧ decide (phase t = .frameComplete) = true) ∧
    (∃ t, exec (.store true) full = .next t ∧ decide (phase t = .frameComplete) = true) ∧
    (∃ t, exec .freset full = .next t ∧ decide (phase t = .accumulating 0) = true) ∧
    (∃ t, exec .isvalid full = .next t ∧ decide (phase t = .frameComplete) = true) :=
  ⟨exists_next (fun t => decide (phase t = .accumulating 39)) (by decide),
    exists_next (fun t => decide (phase t = .frameComplete)) (by decide),
    exists_next (fun t => decide (phase t = .frameComplete)) (by decide),
    exists_next (fun t => decide (phase t = .accumulating 0)) (by decide),
    exists_next (fun t => decide (phase t = .frameComplete)) (by decide)⟩
theorem witness_FresetClearsBufferAndCursorOnly : State.reset.cursorLegal ∧ full.cursorLegal := by decide
theorem witness_ReadmoreReportsCursorBelowForty :
    State.reset.cursor.toNat ≤ 39 ∧ (atCursor 39#6).cursor.toNat ≤ 39 ∧ full.cursor.toNat = 40 := by decide
theorem witness_IsvalidReportsFrameValid : State.reset.cursorLegal ∧ full.cursorLegal := by decide
theorem witness_GetvalueHumidityWord : full.cursorLegal ∧ full.humValid = true ∧
    State.reset.cursorLegal ∧ State.reset.humValid = false := by decide
theorem witness_GetvalueKelvinWord : full.cursorLegal ∧ full.tmpValid = true ∧
    State.reset.cursorLegal ∧ State.reset.tmpValid = false := by decide
theorem witness_GetvalueCelsiusWord : full.cursorLegal ∧ full.tmpValid = true ∧
    State.reset.cursorLegal ∧ State.reset.tmpValid = false := by decide
theorem witness_GetvalueCo2Word : full.cursorLegal ∧ full.co2Valid = true ∧
    State.reset.cursorLegal ∧ State.reset.co2Valid = false := by decide
theorem witness_GetreadingHumidityWord : full.cursorLegal := by decide
theorem witness_GetreadingTemperatureWord : full.cursorLegal := by decide
theorem witness_GetreadingCo2Word : full.cursorLegal := by decide
theorem witness_QueriesWriteOnlyTheResponse :
    isQuery .getvalueTc = true ∧ ∃ t, exec .getvalueTc full = .next t :=
  ⟨by decide, _, exec_of_legal (by decide)⟩
theorem witness_ReadoutDependsOnReadingsAlone :
    let s' := { full with cursor := 3#6, frameValid := false, rspData := 7#32 }
    isReadout .getreadingTemp = true ∧ full.sameReadings s' ∧ full.celsiusArith = s'.celsiusArith ∧
      (∃ t, exec .getreadingTemp full = .next t) ∧ ∃ t, exec .getreadingTemp s' = .next t :=
  ⟨by decide, by decide, by decide, ⟨_, exec_of_legal (by decide)⟩, _, exec_of_legal (by decide)⟩
theorem witness_BufferAndCursorAreHiddenFromQueries :
    let s := atCursor 39#6
    let s' := { State.reset with buf := #v[0xFF#8, 0#8, 0#8, 0#8, 0#8] }
    isQuery .readmore = true ∧ s.sameReadings s' ∧ s.frameValid = s'.frameValid ∧
      (s.cursor.toNat < 40 ↔ s'.cursor.toNat < 40) ∧ s.celsiusArith = s'.celsiusArith ∧
      (∃ t, exec .readmore s = .next t) ∧ ∃ t, exec .readmore s' = .next t :=
  ⟨by decide, by decide, by decide, by decide, by decide, ⟨_, exec_of_legal (by decide)⟩, _, exec_of_legal (by decide)⟩
theorem witness_SentinelAmbiguity :
    (full.humValid = true ∧ full.tmpValid = true ∧ full.co2Valid = true) ∧
    (∃ t, exec .getvalueHum full = .next t) ∧ (∃ t, exec .getvalueTk full = .next t) ∧
    (∃ t, exec .getvalueTc full = .next t) ∧ (∃ t, exec .getvalueCo2 full = .next t) ∧
    (∃ t, exec .getreadingHum full = .next t) ∧ (∃ t, exec .getreadingTemp full = .next t) ∧
    (∃ t, exec .getreadingCo2 full = .next t) ∧
    answer .getvalueHum { full with humQ := 0#10 } = some (0#32, false) :=
  ⟨by decide, ⟨_, exec_of_legal (by decide)⟩, ⟨_, exec_of_legal (by decide)⟩, ⟨_, exec_of_legal (by decide)⟩,
    ⟨_, exec_of_legal (by decide)⟩, ⟨_, exec_of_legal (by decide)⟩, ⟨_, exec_of_legal (by decide)⟩,
    ⟨_, exec_of_legal (by decide)⟩, by decide⟩
theorem witness_ReadoutsAreZeroWithoutAValidFrame :
    isReadout .getvalueTc = true ∧ State.reset.cursorLegal ∧ State.reset.invalidReadsZero ∧
      State.reset.humValid = false ∧ State.reset.tmpValid = false ∧ State.reset.co2Valid = false := by decide

/-- A tie: 2^24 + 1 lies half way between its neighbours, and the fraction chosen is even. And the greatest integer below
the overflow bound, which rounds to the largest finite value. -/
theorem witness_F32RoundsToNearestTiesToEven :
    let q : Frac := ⟨2 ^ 24 + 1, 1⟩
    let y : Binary32 := ⟨false, 151#8, 1#23⟩
    let top : Frac := ⟨2 ^ 128 - 2 ^ 103 - 1, 1⟩
    0 < q.den ∧ |q.toRat| < 2 ^ 128 - 2 ^ 103 ∧ isFinite32 y = true ∧
      (exact32 y).toRat ≠ (exact32 (f32 q)).toRat ∧
      |(exact32 (f32 q)).toRat - q.toRat| = |(exact32 y).toRat - q.toRat| ∧
      0 < top.den ∧ |top.toRat| < 2 ^ 128 - 2 ^ 103 ∧ bits32 (f32 top) = 0x7F7FFFFF#32 := by
  have h1 : exact32 ⟨false, 151#8, 1#23⟩ = ⟨2 ^ 24 + 2, 1⟩ := by decide
  have h2 : exact32 (f32 ⟨2 ^ 24 + 1, 1⟩) = ⟨2 ^ 24, 1⟩ := by decide
  refine ⟨by decide, ?_, by decide, ?_, ?_, by decide, ?_, by decide⟩ <;> (try simp only [h1, h2]) <;>
    norm_num [Frac.toRat]
theorem witness_GetvalueIsExact :
    (∃ t, exec .getvalueHum full = .next t) ∧ full.humValid = true ∧
    (∃ t, exec .getvalueTk full = .next t) ∧ full.tmpValid = true ∧
    (∃ t, exec .getvalueCo2 full = .next t) ∧ full.co2Valid = true :=
  ⟨⟨_, exec_of_legal (by decide)⟩, by decide, ⟨_, exec_of_legal (by decide)⟩, by decide,
    ⟨_, exec_of_legal (by decide)⟩, by decide⟩
theorem witness_GetvalueIsNeverSpecial : ∃ t, exec .getvalueTc full = .next t := ⟨_, exec_of_legal (by decide)⟩
theorem witness_CelsiusRoundsTheExactDifferenceOnce :
    0 < (⟨2048 * 400 - 8950579, 32768⟩ : Frac).den ∧
    (⟨2048 * 400 - 8950579, 32768⟩ : Frac).toRat = ((400#16).toNat : ℚ) / 16 - 8950579 / 32768 ∧
    (⟨100 * 400 - 437040, 1600⟩ : Frac).toRat = ((400#16).toNat : ℚ) / 16 - 27315 / 100 := by
  refine ⟨by decide, ?_, ?_⟩ <;> norm_num [Frac.toRat]
theorem witness_CelsiusModesDifferExactlyInBand :
    ¬(2323 ≤ (2322#16).toNat ∧ (2322#16).toNat ≤ 6418) ∧ (2323 ≤ (2323#16).toNat ∧ (2323#16).toNat ≤ 6418) ∧
    (2323 ≤ (6418#16).toNat ∧ (6418#16).toNat ≤ 6418) ∧ ¬(2323 ≤ (6419#16).toNat ∧ (6419#16).toNat ≤ 6418) := by decide
theorem witness_OpcodeMapDecodes :
    0x53#8 ∉ [0x00#8, 0x01#8, 0x10#8, 0x20#8, 0x30#8, 0x40#8, 0x41#8, 0x42#8, 0x43#8, 0x50#8, 0x51#8, 0x52#8] := by decide
theorem witness_StepRunsTheDecodedCommand :
    (State.reset.offer 0x41#8).inputs = ⟨false, true, 0x41#8⟩ :: [] ∧ decode 0x41#8 = .ok .getvalueTk := by decide
theorem witness_ReservedWordAnswersError :
    (full.offer 0x53#8).cursorLegal ∧ (full.offer 0x53#8).inputs = ⟨false, true, 0x53#8⟩ :: [] ∧
      0x53 ≤ (0x53#8).toNat ∧ (0x53#8).toNat ≤ 0x5F ∧
      (0x02 ≤ (0x0F#8).toNat ∧ (0x0F#8).toNat ≤ 0x0F) ∧ (0x11 ≤ (0x11#8).toNat ∧ (0x1F#8).toNat ≤ 0x1F) ∧
      (0x21 ≤ (0x21#8).toNat ∧ (0x2F#8).toNat ≤ 0x2F) ∧ (0x31 ≤ (0x31#8).toNat ∧ (0x3F#8).toNat ≤ 0x3F) ∧
      (0x44 ≤ (0x44#8).toNat ∧ (0x4F#8).toNat ≤ 0x4F) ∧ 0x60 ≤ (0x60#8).toNat ∧ 0x60 ≤ (0xFF#8).toNat := by decide
theorem witness_ConstructionResetHasPriority :
    ({ full with inputs := [⟨true, true, 0x01#8⟩] } : State).inputs = ⟨true, true, 0x01#8⟩ :: [] := by decide
theorem witness_IdleEdgeChangesNothing : State.reset.cursorLegal ∧ State.reset.inputs = [] ∧
    ({ full with inputs := [⟨false, false, 0x10#8⟩] } : State).cursorLegal ∧
    ({ full with inputs := [⟨false, false, 0x10#8⟩] } : State).inputs = ⟨false, false, 0x10#8⟩ :: [] := by decide
theorem witness_IllegalCursorFaults :
    41 ≤ (atCursor 41#6).cursor.toNat ∧ 41 ≤ (atCursor 63#6).cursor.toNat ∧ (atCursor 41#6).inputs = [] ∧
    ((atCursor 63#6).offer 0x10#8).inputs = ⟨false, true, 0x10#8⟩ :: [] ∧
    (⟨false, true, 0x10#8⟩ : EdgeInput).rst = false := by decide
theorem reset_inv : State.reset.Inv := by decide
theorem witness_StepKeepsInvariant : State.reset.Inv ∧ (State.reset.offer 0x01#8).Inv ∧
    (∃ t, step State.reset = .next t) ∧ ∃ t, step (State.reset.offer 0x01#8) = .next t :=
  ⟨by decide, by decide, some_next (by decide), some_next (by decide)⟩
theorem witness_EveryWordCompletesInOneStep : State.reset.cursorLegal ∧ full.cursorLegal := by decide
theorem witness_StepInputsAreNotWritten : (∃ t, exec (.store true) full = .next t) ∧
    ∃ t, step (full.offer 0x10#8) = .next t :=
  ⟨⟨_, exec_of_legal (by decide)⟩, some_next (by decide)⟩
theorem witness_ValidBitsStayUntilConstructionReset :
    (∃ t, step (full.offer 0x10#8) = .next t) ∧ (full.offer 0x10#8).nextAction ≠ .construct ∧
      full.humValid = true ∧ full.tmpValid = true ∧ full.co2Valid = true :=
  ⟨some_next (by decide), by decide, by decide, by decide, by decide⟩
/-- A state with cursor 0 and a buffer that is not 0, one in FrameComplete, and frames of each tag and of none with the
right checksum, and one with a wrong checksum. -/
theorem witness_FrameAfterFresetIsDecoded :
    State.reset.cursor = 0#6 ∧ (full.setCursor 0#6).cursor = 0#6 ∧ full.cursorLegal ∧
    (0xDC#8).toNat = ((0x41#8).toNat + (0x13#8).toNat + (0x88#8).toNat) % 256 ∧
    (0xD2#8).toNat = ((0x42#8).toNat + (0x01#8).toNat + (0x8F#8).toNat) % 256 ∧
    (0x3B#8).toNat = ((0x50#8).toNat + (0x03#8).toNat + (0xE8#8).toNat) % 256 ∧
    (0x43#8).toNat = ((0x43#8).toNat + (0x00#8).toNat + (0x00#8).toNat) % 256 ∧
    (0xDD#8).toNat ≠ ((0x41#8).toNat + (0x13#8).toNat + (0x88#8).toNat) % 256 := by decide
theorem witness_IncompleteFrameRunsNoValidation :
    State.reset.cursor.toNat + ([true, false] : List Bool).length < 40 ∧
    (atCursor 38#6).cursor.toNat + ([true] : List Bool).length < 40 := by decide
theorem witness_OverrunBitsChangeNothing : full.cursor.toNat = 40 ∧ ([true, false] : List Bool) ≠ [] := by decide
theorem witness_RunsCompose :
    run [] full = .next ⟨[], full⟩ ∧ (∃ o, run [0x20#8] full = .next o) ∧
    decode 0x20#8 = .ok .readmore ∧ (∃ t, exec .readmore full = .next t) ∧
    wordReserved 0x02#8 = true ∧ wordReserved 0xFF#8 = true ∧ full.cursorLegal ∧ full.cursor.toNat = 40 :=
  ⟨rfl, ⟨_, run_cons_next (by rw [accept_eq, whenLegal_of_legal (by decide)]) rfl⟩, by decide,
    ⟨_, exec_of_legal (by decide)⟩, by decide, by decide, by decide, by decide⟩
theorem witness_RunsNeverStop : State.reset.Inv := reset_inv
theorem witness_SteppingTheScheduleIsTheRun :
    ∃ o, run [0x60#8, 0x20#8] { full with inputs := [⟨true, false, 0x00#8⟩] } = .next o :=
  ⟨_, run_cons_next (by rw [accept_eq, whenLegal_of_legal (by decide)])
    (run_cons_next (by rw [accept_eq, whenLegal_of_legal (by decide)]) rfl)⟩
theorem witness_WireFrameLayout : 0 < 40 ∧ 39 < 40 := by decide
theorem test_frame_parameters_agree : Config.frameBits = 8 * Config.frameBytes := by decide

end Sys2Proof.Tests
end

section
/-! The readings and the commands (10_state.md R23): a command that is no STORE and a STORE that completes no valid frame
keep all three readings, and a valid frame writes at most the reading that its tag selects. -/

namespace Sys2Proof.Machine

/-! ### What keeps the readings -/

/-- Dispatch leaves a reading alone unless the tag is the reading's own. -/
theorem dispatchTag_keeps_of_other_tag (tag : Byte) (raw : BitVec 16) (s : State) :
    (tag ≠ Config.tagHum → ((dispatchTag tag raw s).humValid, (dispatchTag tag raw s).humQ) = (s.humValid, s.humQ)) ∧
    (tag ≠ Config.tagTemp →
      ((dispatchTag tag raw s).tmpValid, (dispatchTag tag raw s).tmpRaw) = (s.tmpValid, s.tmpRaw)) ∧
    (tag ≠ Config.tagCo2 →
      ((dispatchTag tag raw s).co2Valid, (dispatchTag tag raw s).co2Raw) = (s.co2Valid, s.co2Raw)) := by
  rcases dispatchTag_cases tag raw s with ⟨ht, h⟩ | ⟨ht, h⟩ | ⟨ht, h⟩ | ⟨-, -, -, h⟩ <;> rw [h]
  · exact ⟨absurd ht, fun _ => rfl, fun _ => rfl⟩
  · exact ⟨fun _ => rfl, absurd ht, fun _ => rfl⟩
  · exact ⟨fun _ => rfl, fun _ => rfl, absurd ht⟩
  · exact ⟨fun _ => rfl, fun _ => rfl, fun _ => rfl⟩

/-- FRESET and the queries keep all three readings. -/
theorem exec_sameReadings_of_not_store {i : Instr} {s t : State} (h : exec i s = .next t)
    (hi : ∀ b, i ≠ .store b) : s.sameReadings t := by
  obtain ⟨-, rfl⟩ := exec_next h
  cases i with
  | store b => exact absurd rfl (hi b)
  | _ => exact ⟨rfl, rfl, rfl, rfl, rfl, rfl⟩

/-- A command keeps all three readings, or it is the STORE that completes a frame with a matching checksum; that one
dispatches on the frame's tag, from a state that still holds the readings of `s`. -/
theorem exec_sameReadings_or_dispatch {i : Instr} {s t : State} (h : exec i s = .next t) :
    s.sameReadings t ∨
    ((∃ b, i = .store b) ∧ s.cursor.toNat = 39 ∧ checksumOk s.buf = true ∧
      ∃ u, s.sameReadings u ∧ (dispatchTag s.buf[0] (rawValue s.buf) u).sameReadings t) := by
  have hsame : s.sameReadings s := ⟨rfl, rfl, rfl, rfl, rfl, rfl⟩
  by_cases hi : ∃ b, i = .store b
  · obtain ⟨b, rfl⟩ := hi
    rcases store_cases h with ⟨-, rfl⟩ | ⟨-, -, rfl⟩ | ⟨hc, hk, rfl⟩ | ⟨-, rfl⟩
    · exact .inl hsame
    · exact .inl hsame
    · exact .inr ⟨⟨b, rfl⟩, hc, hk, ((s.writeBit 39 b).setCursor 40#6).setFrameValid true, hsame,
        rfl, rfl, rfl, rfl, rfl, rfl⟩
    · exact .inl hsame
  · exact .inl (exec_sameReadings_of_not_store h (not_exists.1 hi))

/-! ### The statement -/

/-- Settles O10: only a completing STORE with a matching checksum dispatches, and dispatch keeps every reading but the
tag's own. -/
theorem eachReadingNeedsItsOwnValidFrame : Obligations.EachReadingNeedsItsOwnValidFrame := by
  unfold Obligations.EachReadingNeedsItsOwnValidFrame
  intro i s t h
  rcases exec_sameReadings_or_dispatch h with
    ⟨hv, hq, tv, tr, cv, cr⟩ | ⟨hi, hc, hk, u, ⟨hv, hq, tv, tr, cv, cr⟩, ⟨hv', hq', tv', tr', cv', cr'⟩⟩
  · rw [hv, hq, tv, tr, cv, cr]
    exact ⟨absurd rfl, absurd rfl, absurd rfl⟩
  · obtain ⟨hum, tmp, co2⟩ := dispatchTag_keeps_of_other_tag s.buf[0] (rawValue s.buf) u
    have hsum := (checksumOk_iff s.buf).1 hk
    rw [← hv', ← hq', ← tv', ← tr', ← cv', ← cr', hv, hq, tv, tr, cv, cr]
    exact ⟨fun hne => ⟨hi, hc, Decidable.of_not_not (mt hum hne), hsum⟩,
      fun hne => ⟨hi, hc, Decidable.of_not_not (mt tmp hne), hsum⟩,
      fun hne => ⟨hi, hc, Decidable.of_not_not (mt co2 hne), hsum⟩⟩

end Sys2Proof.Machine
end

section
/-! The bit-write primitive (20_memory.md R31) on every bit of every byte of the buffer. -/

namespace Sys2Proof.Machine

/-- Settles O1: byte `k div 8` is rewritten at bit `7 - k mod 8` alone, and every other byte is kept whole. -/
theorem bufWriteBitSetsOneBitOnly : Obligations.BufWriteBitSetsOneBitOnly := by
  unfold Obligations.BufWriteBitSetsOneBitOnly
  intro buf k b _ i j
  rw [Fin.getElem_fin, Fin.getElem_fin, bufWriteBit_getElem]
  by_cases hbyte : i.val = k / 8
  · rw [if_pos hbyte, setBit_getLsbD _ _ _ _ (by omega)]
    simp only [hbyte, true_and]
  · rw [if_neg hbyte, if_neg fun h => hbyte h.1]

end Sys2Proof.Machine
end

section
/-! The decoder and the encoder (30_encoding.md R41 to R44, R47): a word that decodes to a command is that command's word,
so a word that no command has is refused. -/

namespace Sys2Proof.Machine

/-! ### What each part of the decoder accepts -/

/-- A word is its field OP followed by its field ARG. -/
theorem opField_append_argField (w : Byte) : opField w ++ argField w = w := by
  unfold opField argField
  rw [BitVec.extractLsb'_append_extractLsb'_eq_extractLsb' (by decide)]
  exact BitVec.extractLsb'_eq_self

theorem encode_of_decodeStore {arg : BitVec 4} {i : Instr} (h : decodeStore arg = .ok i) :
    encode i = 0x0#4 ++ arg := by
  unfold decodeStore at h
  split at h
  case h_1 hn => cases h; rw [show arg = 0#4 from BitVec.eq_of_toNat_eq hn]; rfl
  case h_2 hn => cases h; rw [show arg = 1#4 from BitVec.eq_of_toNat_eq hn]; rfl
  case h_3 => cases h

theorem encode_of_decodeNoArg {op arg : BitVec 4} {i j : Instr} (hj : encode j = op ++ 0#4)
    (h : decodeNoArg j arg = .ok i) : encode i = op ++ arg := by
  unfold decodeNoArg at h
  split at h
  case isTrue harg => cases h; rw [harg, hj]
  case isFalse => cases h

theorem encode_of_decodeGetvalue {arg : BitVec 4} {i : Instr} (h : decodeGetvalue arg = .ok i) :
    encode i = 0x4#4 ++ arg := by
  unfold decodeGetvalue at h
  split at h
  case h_1 hn => cases h; rw [show arg = 0#4 from BitVec.eq_of_toNat_eq hn]; rfl
  case h_2 hn => cases h; rw [show arg = 1#4 from BitVec.eq_of_toNat_eq hn]; rfl
  case h_3 hn => cases h; rw [show arg = 2#4 from BitVec.eq_of_toNat_eq hn]; rfl
  case h_4 hn => cases h; rw [show arg = 3#4 from BitVec.eq_of_toNat_eq hn]; rfl
  case h_5 => cases h

theorem encode_of_decodeGetreading {arg : BitVec 4} {i : Instr} (h : decodeGetreading arg = .ok i) :
    encode i = 0x5#4 ++ arg := by
  unfold decodeGetreading at h
  split at h
  case h_1 hn => cases h; rw [show arg = 0#4 from BitVec.eq_of_toNat_eq hn]; rfl
  case h_2 hn => cases h; rw [show arg = 1#4 from BitVec.eq_of_toNat_eq hn]; rfl
  case h_3 hn => cases h; rw [show arg = 2#4 from BitVec.eq_of_toNat_eq hn]; rfl
  case h_4 => cases h

/-! ### Decoding and encoding -/

@[simp] theorem decode_encode (i : Instr) : decode (encode i) = .ok i := by
  cases i with
  | store b => cases b <;> rfl
  | _ => rfl

/-- A word that decodes to a command is that command's word. -/
theorem encode_of_decode {w : Byte} {i : Instr} (h : decode w = .ok i) : encode i = w := by
  rw [← opField_append_argField w]
  unfold decode at h
  split at h
  case h_1 hop => rw [show opField w = 0#4 from BitVec.eq_of_toNat_eq hop]; exact encode_of_decodeStore h
  case h_2 hop => rw [show opField w = 1#4 from BitVec.eq_of_toNat_eq hop]; exact encode_of_decodeNoArg rfl h
  case h_3 hop => rw [show opField w = 2#4 from BitVec.eq_of_toNat_eq hop]; exact encode_of_decodeNoArg rfl h
  case h_4 hop => rw [show opField w = 3#4 from BitVec.eq_of_toNat_eq hop]; exact encode_of_decodeNoArg rfl h
  case h_5 hop => rw [show opField w = 4#4 from BitVec.eq_of_toNat_eq hop]; exact encode_of_decodeGetvalue h
  case h_6 hop => rw [show opField w = 5#4 from BitVec.eq_of_toNat_eq hop]; exact encode_of_decodeGetreading h
  case h_7 => cases h

/-- A word that no command has is refused. -/
theorem decode_refuses_of_forall_encode_ne {w : Byte} (h : ∀ i, encode i ≠ w) : ∃ e, decode w = .error e := by
  cases hw : decode w with
  | error e => exact ⟨e, rfl⟩
  | ok i => exact absurd (encode_of_decode hw) (h i)

/-- The word of a command lies in none of the reserved ranges. -/
theorem wordReserved_encode (i : Instr) : wordReserved (encode i) = false := by
  cases i with
  | store b => exact (Laws.EncodedWordDefined.store b).2
  | freset => exact Laws.EncodedWordDefined.freset.2
  | readmore => exact Laws.EncodedWordDefined.readmore.2
  | isvalid => exact Laws.EncodedWordDefined.isvalid.2
  | getvalueHum => exact Laws.EncodedWordDefined.getvalueHum.2
  | getvalueTk => exact Laws.EncodedWordDefined.getvalueTk.2
  | getvalueTc => exact Laws.EncodedWordDefined.getvalueTc.2
  | getvalueCo2 => exact Laws.EncodedWordDefined.getvalueCo2.2
  | getreadingHum => exact Laws.EncodedWordDefined.getreadingHum.2
  | getreadingTemp => exact Laws.EncodedWordDefined.getreadingTemp.2
  | getreadingCo2 => exact Laws.EncodedWordDefined.getreadingCo2.2

/-- A reserved word is refused. -/
theorem decode_refuses_of_reserved {w : Byte} (h : wordReserved w = true) : ∃ e, decode w = .error e := by
  apply decode_refuses_of_forall_encode_ne
  rintro i rfl
  rw [wordReserved_encode] at h
  cases h

/-! ### The statement on the opcode map -/

/-- Settles O38: each word of the map is the encoding of its command, and a word that decodes is the encoding of some
command, so it stands in the list. -/
theorem opcodeMapDecodes : Obligations.OpcodeMapDecodes := by
  unfold Obligations.OpcodeMapDecodes
  refine ⟨decode_encode (.store false), decode_encode (.store true), decode_encode .freset, decode_encode .readmore,
    decode_encode .isvalid, decode_encode .getvalueHum, decode_encode .getvalueTk, decode_encode .getvalueTc,
    decode_encode .getvalueCo2, decode_encode .getreadingHum, decode_encode .getreadingTemp,
    decode_encode .getreadingCo2, fun w hw => decode_refuses_of_forall_encode_ne ?_⟩
  rintro i rfl
  cases i with
  | store b => cases b <;> exact hw (by decide)
  | _ => exact hw (by decide)

end Sys2Proof.Machine
end

section
/-! The pseudo-commands (30_encoding.md R50) as sequences of STOREs and of their words. -/

namespace Sys2Proof.Machine

theorem encode_store (b : Bool) : encode (.store b) = if b then 0x01#8 else 0x00#8 := by
  cases b <;> rfl

/-- SENDBYTE stores the bits of its byte from bit 7 down. -/
theorem sendByte_eq_map (x : Byte) :
    sendByte x = [7, 6, 5, 4, 3, 2, 1, 0].map fun j => .store (x.getLsbD j) := rfl

@[simp] theorem sendByte_length (x : Byte) : (sendByte x).length = 8 := rfl

@[simp] theorem sendFrame_length (b0 b1 b2 b3 b4 : Byte) : (sendFrame b0 b1 b2 b3 b4).length = 40 := by
  simp only [sendFrame, List.length_append, sendByte_length]

/-- Settles O40: SENDBYTE word by word, SENDFRAME by re-bracketing its five SENDBYTEs, and SENDFRAMECK by the definition
of the checksum. -/
theorem pseudoCommandsExpandToStores : Obligations.PseudoCommandsExpandToStores := by
  unfold Obligations.PseudoCommandsExpandToStores
  refine ⟨fun x => ?_, fun b0 b1 b2 b3 b4 => ⟨?_, sendFrame_length b0 b1 b2 b3 b4⟩, fun _ _ _ _ => rfl⟩
  · rw [sendByte_eq_map, List.map_map]
    exact List.map_congr_left fun j _ => encode_store (x.getLsbD j)
  · simp only [sendFrame, List.append_assoc]

end Sys2Proof.Machine
end

section
/-! Reserved words at the input ports (30_encoding.md R40, R47). -/

namespace Sys2Proof.Machine

/-- At an edge with `rst = 0` and a word offered, the step accepts that word (R40). -/
theorem step_of_offered {s : State} {w : Byte} {rest : List EdgeInput} (h : s.inputs = ⟨false, true, w⟩ :: rest) :
    step s = accept w (s.setInputs rest) := by
  have hact : s.nextAction = .command w := by unfold State.nextAction; rw [h]; rfl
  have hpop : s.popInput = s.setInputs rest := by rw [State.popInput, h]; rfl
  rw [step, hact, ← hpop]

/-- A reserved word accepted in a legal state only answers (0, 1) (R47). -/
theorem accept_of_reserved {w : Byte} {s : State} (hw : wordReserved w = true) (hs : s.cursorLegal) :
    accept w s = .next (s.respond 0x00000000#32 true) := by
  obtain ⟨e, he⟩ := decode_refuses_of_reserved hw
  rw [accept_of_refused he]
  exact whenLegal_of_legal hs

/-- The reserved words are those of the seven ranges of R47. -/
theorem wordReserved_iff (w : Byte) : wordReserved w = true ↔
    (0x02 ≤ w.toNat ∧ w.toNat ≤ 0x0F) ∨ (0x11 ≤ w.toNat ∧ w.toNat ≤ 0x1F) ∨
      (0x21 ≤ w.toNat ∧ w.toNat ≤ 0x2F) ∨ (0x31 ≤ w.toNat ∧ w.toNat ≤ 0x3F) ∨
      (0x44 ≤ w.toNat ∧ w.toNat ≤ 0x4F) ∨ (0x53 ≤ w.toNat ∧ w.toNat ≤ 0x5F) ∨ 0x60 ≤ w.toNat := by
  simp only [wordReserved, Bool.or_eq_true, Bool.and_eq_true, decide_eq_true_eq, or_assoc]

/-- Settles O43: the step accepts the offered word, and a reserved word only answers (0, 1). -/
theorem reservedWordAnswersError : Obligations.ReservedWordAnswersError := by
  unfold Obligations.ReservedWordAnswersError
  intro s w rest hs hin hw
  rw [step_of_offered hin, accept_of_reserved ((wordReserved_iff w).2 hw) (show (s.setInputs rest).cursorLegal from hs)]
  rfl

end Sys2Proof.Machine
end

section
/-! STORE at the end of a frame (40_store.md R61 to R69): the completing STORE as one equation per checksum result, the
dispatch as one equation per tag, and the rejected bit. -/

namespace Sys2Proof.Machine

/-! ### The tags -/

theorem dispatchTag_tagHum (raw : BitVec 16) (s : State) :
    dispatchTag Config.tagHum raw s = s.setHum (humidityOf raw) := rfl

theorem dispatchTag_tagTemp (raw : BitVec 16) (s : State) : dispatchTag Config.tagTemp raw s = s.setTmp raw := rfl

theorem dispatchTag_tagCo2 (raw : BitVec 16) (s : State) : dispatchTag Config.tagCo2 raw s = s.setCo2 raw := rfl

theorem dispatchTag_of_other_tag {tag : Byte} (hum : tag ≠ Config.tagHum) (temp : tag ≠ Config.tagTemp)
    (co2 : tag ≠ Config.tagCo2) (raw : BitVec 16) (s : State) : dispatchTag tag raw s = s := by
  rw [dispatchTag, if_neg hum, if_neg temp, if_neg co2]

/-! ### The raw value -/

/-- The bit a completing STORE writes takes no part in the raw value. -/
theorem rawValue_bufWriteBit_last (buf : FrameBuf) (b : Bool) : rawValue (bufWriteBit buf 39 b) = rawValue buf := by
  simp only [rawValue, bufWriteBit_last_getElem _ _ 1 (by omega), bufWriteBit_last_getElem _ _ 2 (by omega)]

theorem humidityOf_rawValue (buf : FrameBuf) :
    humidityOf (rawValue buf) = BitVec.ofNat 10 ((buf[1].toNat * 256 + buf[2].toNat) / 100) := by
  rw [humidityOf, rawValue_toNat]

/-- The quotient of a 16-bit raw value is at most 655 (R65). -/
theorem humidityQuotient_le (buf : FrameBuf) : (buf[1].toNat * 256 + buf[2].toNat) / 100 ≤ 655 := by
  have hraw := (rawValue buf).isLt
  rw [rawValue_toNat] at hraw
  omega

/-! ### The completing STORE -/

/-- A frame that fails the checksum: the last bit is stored and the flag cleared (R64). -/
theorem exec_store_of_checksum_bad {s : State} (b : Bool) (hc : s.cursor.toNat = 39) (hk : checksumOk s.buf = false) :
    exec (.store b) s =
      .next ((((s.writeBit 39 b).setCursor 40#6).setFrameValid false).respond 0x00000000#32 false) := by
  have hk' : checksumOk ((s.writeBit 39 b).setCursor 40#6).buf = false :=
    (checksumOk_bufWriteBit_last s.buf b).trans hk
  rw [exec_of_legal (show s.cursor.toNat ≤ 40 by omega), commandEffect, storeBit_completing b hc,
    validateAndApply_of_bad hk']

/-- A frame that passes the checksum: the last bit is stored, the flag set, and the tag and the raw value that stood in the
buffer already are dispatched (R63). -/
theorem exec_store_of_checksum_ok {s : State} (b : Bool) (hc : s.cursor.toNat = 39) (hk : checksumOk s.buf = true) :
    exec (.store b) s =
      .next ((dispatchTag s.buf[0] (rawValue s.buf)
        (((s.writeBit 39 b).setCursor 40#6).setFrameValid true)).respond 0x00000000#32 false) := by
  have hk' : checksumOk ((s.writeBit 39 b).setCursor 40#6).buf = true :=
    (checksumOk_bufWriteBit_last s.buf b).trans hk
  rw [exec_of_legal (show s.cursor.toNat ≤ 40 by omega), commandEffect, storeBit_completing b hc,
    validateAndApply_of_ok hk', State.setCursor_buf, State.writeBit_buf, rawValue_bufWriteBit_last,
    bufWriteBit_last_getElem _ _ 0 (by omega)]

/-! ### The statements -/

/-- Settles O3: the checksum test on the buffer before the last bit fails, and nothing is dispatched. -/
theorem mismatchedFrameTouchesNoReading : Obligations.MismatchedFrameTouchesNoReading := by
  unfold Obligations.MismatchedFrameTouchesNoReading
  intro b s hc hsum
  rw [exec_store_of_checksum_bad b hc (Bool.eq_false_iff.2 (mt (checksumOk_iff s.buf).1 hsum))]
  rfl

/-- Settles O4: the tag 0x41 dispatches the raw value's quotient to the humidity reading. -/
theorem humidityFrameStoresTruncatedQuotient : Obligations.HumidityFrameStoresTruncatedQuotient := by
  unfold Obligations.HumidityFrameStoresTruncatedQuotient
  intro b s hc hsum htag
  refine ⟨humidityQuotient_le s.buf, ?_⟩
  rw [exec_store_of_checksum_ok b hc ((checksumOk_iff s.buf).2 hsum), htag, dispatchTag_tagHum, humidityOf_rawValue]
  rfl

/-- Settles O5: the tag 0x42 dispatches the raw value to the temperature reading. -/
theorem temperatureFrameStoresRawValue : Obligations.TemperatureFrameStoresRawValue := by
  unfold Obligations.TemperatureFrameStoresRawValue
  intro b s hc hsum htag
  rw [exec_store_of_checksum_ok b hc ((checksumOk_iff s.buf).2 hsum), htag, dispatchTag_tagTemp, rawValue_eq]
  rfl

/-- Settles O6: the tag 0x50 dispatches the raw value to the CO2 reading. -/
theorem co2FrameStoresRawValue : Obligations.Co2FrameStoresRawValue := by
  unfold Obligations.Co2FrameStoresRawValue
  intro b s hc hsum htag
  rw [exec_store_of_checksum_ok b hc ((checksumOk_iff s.buf).2 hsum), htag, dispatchTag_tagCo2, rawValue_eq]
  rfl

/-- Settles O7: a tag that is no reading's own dispatches nothing, and the flag is set all the same. -/
theorem unrecognizedTagUpdatesNoReading : Obligations.UnrecognizedTagUpdatesNoReading := by
  unfold Obligations.UnrecognizedTagUpdatesNoReading
  intro b s hc hsum hum temp co2
  rw [exec_store_of_checksum_ok b hc ((checksumOk_iff s.buf).2 hsum), dispatchTag_of_other_tag hum temp co2]
  rfl

/-- Settles O8: in FrameComplete the bit is rejected, so only the response is written. -/
theorem storeInFrameCompleteIsRejected : Obligations.StoreInFrameCompleteIsRejected := by
  unfold Obligations.StoreInFrameCompleteIsRejected
  intro b s hc
  rw [exec_of_legal (show s.cursor.toNat ≤ 40 by omega), commandEffect, storeBit_complete b hc]
  rfl

end Sys2Proof.Machine
end

section
/-! The status commands (41_status.md R80, R81): the answer of each as one equation on `exec`. -/

namespace Sys2Proof.Machine

/-- READMORE in a legal state answers whether the cursor is below 40, as a word (R80). -/
theorem exec_readmore_of_legal {s : State} (h : s.cursorLegal) :
    exec .readmore s =
      .next (s.respond (if s.cursor.toNat < 40 then 0x00000001#32 else 0x00000000#32) false) := by
  rw [exec_of_legal h, commandEffect, bitWord_eq]
  simp only [decide_eq_true_eq]

/-- ISVALID in a legal state answers the frame-valid flag, as a word (R81). -/
theorem exec_isvalid_of_legal {s : State} (h : s.cursorLegal) :
    exec .isvalid s = .next (s.respond (if s.frameValid then 0x00000001#32 else 0x00000000#32) false) := by
  rw [exec_of_legal h, commandEffect, bitWord_eq]

/-- Settles O16: a cursor of at most 39 passes READMORE's test, and the cursor 40 fails it. -/
theorem readmoreReportsCursorBelowForty : Obligations.ReadmoreReportsCursorBelowForty := by
  unfold Obligations.ReadmoreReportsCursorBelowForty
  refine ⟨decode_encode .readmore, fun s => ⟨fun hc => ?accumulating, fun hc => ?complete⟩⟩
  case accumulating =>
    rw [exec_readmore_of_legal (show s.cursor.toNat ≤ 40 by omega), if_pos (by omega)]
    rfl
  case complete =>
    rw [exec_readmore_of_legal (show s.cursor.toNat ≤ 40 by omega), if_neg (by omega)]
    rfl

/-- Settles O17: the word 0x30 is ISVALID's own, and its answer is the flag. -/
theorem isvalidReportsFrameValid : Obligations.IsvalidReportsFrameValid := by
  unfold Obligations.IsvalidReportsFrameValid
  exact ⟨decode_encode .isvalid, fun _ hs => exec_isvalid_of_legal hs⟩

end Sys2Proof.Machine
end

section
/-! When a binary32 result is normal, and so no zero: the exponent field of `f32`, and of the Celsius value under either
value of CELSIUS_ARITH (42_readout.md R95). -/

namespace Sys2Proof.Machine

/-! ### The exponent field of `f32` -/

/-- A fraction that is not 0, with numerator and denominator inside the normal range, has a normal binade. -/
theorem floorLog2_normal {n d : Nat} (hn : 0 < n) (hd : 0 < d) (hn' : n < 2 ^ 127) (hd' : d ≤ 2 ^ 126) :
    -126 ≤ floorLog2 n d ∧ floorLog2 n d ≤ 126 := by
  obtain ⟨below, above⟩ := floorLog2_spec n d hn hd
  have n1 : (1 : ℚ) ≤ n := by exact_mod_cast hn
  have n2 : (n : ℚ) < 2 ^ 127 := by exact_mod_cast hn'
  have d1 : (1 : ℚ) ≤ d := by exact_mod_cast hd
  have d2 : (d : ℚ) ≤ 2 ^ 126 := by exact_mod_cast hd'
  have low : (2 : ℚ) ^ (-126 : Int) < 2 ^ (floorLog2 n d + 1) :=
    calc (2 : ℚ) ^ (-126 : Int) = 1 / 2 ^ 126 := by norm_num
      _ ≤ n / d := by gcongr
      _ < _ := above
  have high : (2 : ℚ) ^ floorLog2 n d < 2 ^ (127 : Int) :=
    calc (2 : ℚ) ^ floorLog2 n d ≤ n / d := below
      _ ≤ n := div_le_self (by positivity) d1
      _ < 2 ^ (127 : Int) := by exact_mod_cast n2
  rw [zpow_lt_zpow_iff_right₀ (by norm_num)] at low high
  omega

/-- Such a fraction rounds to a normal binary32. -/
theorem f32_exponent_ne_zero {q : Frac} (h0 : q.num ≠ 0) (hd : 0 < q.den) (hnum : q.num.natAbs < 2 ^ 127)
    (hden : q.den ≤ 2 ^ 126) : (f32 q).exponent ≠ 0#8 := by
  obtain ⟨h1, h2⟩ := floorLog2_normal (Int.natAbs_pos.2 h0) hd hnum hden
  obtain ⟨m, m1, m2, -, hf⟩ := f32_normal q h0 hd _ rfl h1 h2
  have hlow : 1 ≤ m / 2 ^ 23 := Nat.div_pos m1 (by decide)
  have hhigh : m / 2 ^ 23 ≤ 2 := Nat.div_le_div_right m2
  rw [hf, Ne, ← BitVec.toNat_inj, BitVec.toNat_ofNat, BitVec.toNat_ofNat]
  omega

/-- Only +0.0 has the word 0x00000000. -/
theorem bits32_ne_zero_of_exponent {x : Binary32} (h : x.exponent ≠ 0#8) : bits32 x ≠ 0x00000000#32 := by
  intro hx
  have hzero : x = ⟨false, 0#8, 0#23⟩ := bits32_injective hx
  exact h (by rw [hzero])

/-! ### The Celsius value -/

/-- R95: C273 = 8950579/32768. -/
theorem c273_eq : c273 = ⟨8950579, 32768⟩ := by decide

/-- The Celsius value is a normal binary32 in both modes: neither offset is a whole number of sixteenths, so the exact
difference is never 0. -/
theorem celsius_exponent_ne_zero (m : CelsiusArith) (raw : BitVec 16) : (celsius m raw).exponent ≠ 0#8 := by
  have hraw := raw.isLt
  cases m with
  | b32TwoStep =>
    have hnum : (fracSub (kelvinFrac raw) c273).num = raw.toNat * 32768 - 8950579 * 16 := by rw [c273_eq]; rfl
    have hden : (fracSub (kelvinFrac raw) c273).den = 16 * 32768 := by rw [c273_eq]; rfl
    apply f32_exponent_ne_zero <;> omega
  | exactRne =>
    have hnum : (fracSub (kelvinFrac raw) Config.kelvinOffset).num = raw.toNat * 100 - 27315 * 16 := rfl
    have hden : (fracSub (kelvinFrac raw) Config.kelvinOffset).den = 16 * 100 := rfl
    apply f32_exponent_ne_zero <;> omega

/-- The word of the raw value 0 is the same in both modes (R92). -/
theorem bits32_celsius_zero (m : CelsiusArith) : bits32 (celsius m 0#16) = 0xC3889333#32 := by
  cases m with
  | b32TwoStep => decide
  | exactRne => decide

end Sys2Proof.Machine
end

section
/-! The value readout commands (42_readout.md R90 to R98): what a command that answers with `valueWord` or `readingWord`
gives in a legal state, and the seven statements as its instances. -/

namespace Sys2Proof.Machine

/-! ### The two forms of answer -/

/-- GETVALUE of a valid reading answers the reading's binary32 word. -/
theorem exec_value_of_valid {i : Instr} {s : State} {v : Bool} {x : Binary32}
    (he : commandEffect i s = s.respond (valueWord v x) false) (hs : s.cursorLegal) (hv : v = true) :
    exec i s = .next (s.respond (bits32 x) false) := by
  rw [exec_of_legal hs, he, valueWord_of_valid hv]

/-- GETVALUE of an invalid reading answers the sentinel. -/
theorem exec_value_of_invalid {i : Instr} {s : State} {v : Bool} {x : Binary32}
    (he : commandEffect i s = s.respond (valueWord v x) false) (hs : s.cursorLegal) (hv : v = false) :
    exec i s = .next (s.respond 0x00000000#32 false) := by
  rw [exec_of_legal hs, he, valueWord_of_invalid hv]

/-- GETREADING answers the valid bit in bit 16 and the value register below it. -/
theorem exec_reading {i : Instr} {s : State} {v : Bool} {x : BitVec 16}
    (he : commandEffect i s = s.respond (readingWord v x) false) (hs : s.cursorLegal) :
    exec i s = .next (s.respond (BitVec.ofNat 32 (v.toNat * 65536 + x.toNat)) false) := by
  rw [exec_of_legal hs, he, readingWord_eq]

/-! ### The statements -/

/-- Settles O20: the two answers of GETVALUE, and the Celsius value is normal, so its word is not 0. -/
theorem getvalueCelsiusWord : Obligations.GetvalueCelsiusWord := by
  unfold Obligations.GetvalueCelsiusWord
  exact ⟨decode_encode .getvalueTc, fun _ hs hv => exec_value_of_valid rfl hs hv,
    fun _ hs hv => exec_value_of_invalid rfl hs hv, bits32_celsius_zero,
    fun m raw => bits32_ne_zero_of_exponent (celsius_exponent_ne_zero m raw)⟩

/-- Settles O18: the two answers of GETVALUE for the humidity. -/
theorem getvalueHumidityWord : Obligations.GetvalueHumidityWord := by
  unfold Obligations.GetvalueHumidityWord
  exact ⟨decode_encode .getvalueHum, fun _ hs hv => exec_value_of_valid rfl hs hv,
    fun _ hs hv => exec_value_of_invalid rfl hs hv⟩

/-- Settles O19: the two answers of GETVALUE for the Kelvin value. -/
theorem getvalueKelvinWord : Obligations.GetvalueKelvinWord := by
  unfold Obligations.GetvalueKelvinWord
  exact ⟨decode_encode .getvalueTk, fun _ hs hv => exec_value_of_valid rfl hs hv,
    fun _ hs hv => exec_value_of_invalid rfl hs hv⟩

/-- Settles O21: the two answers of GETVALUE for the CO2 value. -/
theorem getvalueCo2Word : Obligations.GetvalueCo2Word := by
  unfold Obligations.GetvalueCo2Word
  exact ⟨decode_encode .getvalueCo2, fun _ hs hv => exec_value_of_valid rfl hs hv,
    fun _ hs hv => exec_value_of_invalid rfl hs hv⟩

/-- Settles O22: the humidity register keeps its number when it is widened to 16 bits. -/
theorem getreadingHumidityWord : Obligations.GetreadingHumidityWord := by
  unfold Obligations.GetreadingHumidityWord
  refine ⟨decode_encode .getreadingHum, fun s hs => ?_⟩
  have hwide : (s.humQ.setWidth 16).toNat = s.humQ.toNat := BitVec.toNat_setWidth_of_le (by decide)
  rw [exec_reading rfl hs, hwide]
  rfl

/-- Settles O23: the answer of GETREADING for the temperature. -/
theorem getreadingTemperatureWord : Obligations.GetreadingTemperatureWord := by
  unfold Obligations.GetreadingTemperatureWord
  exact ⟨decode_encode .getreadingTemp, fun _ hs => exec_reading rfl hs⟩

/-- Settles O24: the answer of GETREADING for the CO2 value. -/
theorem getreadingCo2Word : Obligations.GetreadingCo2Word := by
  unfold Obligations.GetreadingCo2Word
  exact ⟨decode_encode .getreadingCo2, fun _ hs => exec_reading rfl hs⟩

end Sys2Proof.Machine
end

section
/-! FRESET (43_freset.md R110): what it does to a legal state, as one equation on `exec`. -/

namespace Sys2Proof.Machine

/-- FRESET in a legal state zeroes the buffer and the cursor and answers (0, 0); it writes nothing else (R110). -/
theorem exec_freset_of_legal {s : State} (h : s.cursorLegal) :
    exec .freset s = .next ((s.clearBuf.setCursor 0#6).respond 0x00000000#32 false) := by
  rw [exec_of_legal h, commandEffect]

/-- Settles O15: the word 0x10 is FRESET's own, and its three writes are those of the buffer, the cursor and the
response. -/
theorem fresetClearsBufferAndCursorOnly : Obligations.FresetClearsBufferAndCursorOnly := by
  unfold Obligations.FresetClearsBufferAndCursorOnly
  exact ⟨decode_encode .freset, fun _ hs => exec_freset_of_legal hs⟩

end Sys2Proof.Machine
end

section
/-! Accepting any word in a legal state (60_exceptions.md R120): there is one next state, its cursor is legal again, and
its error bit tells the reserved words (30_encoding.md R47) from the defined ones. -/

namespace Sys2Proof.Machine

/-! ### The cursor stays legal -/

/-- STORE moves the cursor one on below 39, to 40 at 39, and not at all at 40. -/
theorem exec_store_keeps_cursorLegal {b : Bool} {s t : State} (h : exec (.store b) s = .next t) : t.cursorLegal := by
  rcases store_cases h with ⟨hc, rfl⟩ | ⟨-, -, rfl⟩ | ⟨-, -, rfl⟩ | ⟨hc, rfl⟩
  · change (s.cursor + 1#6).toNat ≤ 40
    bv_omega
  · exact Nat.le_refl 40
  · obtain ⟨hcursor, -⟩ := dispatchTag_frame s.buf[0] (rawValue s.buf)
      (((s.writeBit 39 b).setCursor 40#6).setFrameValid true)
    simp [State.cursorLegal, hcursor]
  · exact hc.le

/-- FRESET writes the cursor 0, and a query does not write it. -/
theorem commandEffect_keeps_cursorLegal {s : State} (i : Instr) (h : s.cursorLegal) :
    (commandEffect i s).cursorLegal := by
  cases i with
  | store b => exact exec_store_keeps_cursorLegal (exec_of_legal h)
  | freset => exact Nat.zero_le 40
  | _ => exact h

theorem wordEffect_keeps_cursorLegal {s : State} (w : Byte) (h : s.cursorLegal) : (wordEffect w s).cursorLegal := by
  unfold wordEffect
  cases decode w with
  | ok i => exact commandEffect_keeps_cursorLegal i h
  | error e => exact h

/-! ### The error bit marks the reserved words -/

/-- The words outside the seven ranges of R47 are the twelve of the opcode map (R41). -/
theorem exists_encode_of_not_reserved {w : Byte} (h : wordReserved w = false) : ∃ i, encode i = w := by
  have hnot := (wordReserved_iff w).not.1 (Bool.eq_false_iff.1 h)
  have hw : w.toNat = 0x00 ∨ w.toNat = 0x01 ∨ w.toNat = 0x10 ∨ w.toNat = 0x20 ∨ w.toNat = 0x30 ∨ w.toNat = 0x40 ∨
      w.toNat = 0x41 ∨ w.toNat = 0x42 ∨ w.toNat = 0x43 ∨ w.toNat = 0x50 ∨ w.toNat = 0x51 ∨ w.toNat = 0x52 := by omega
  rcases hw with hn | hn | hn | hn | hn | hn | hn | hn | hn | hn | hn | hn
  · exact ⟨.store false, BitVec.eq_of_toNat_eq hn.symm⟩
  · exact ⟨.store true, BitVec.eq_of_toNat_eq hn.symm⟩
  · exact ⟨.freset, BitVec.eq_of_toNat_eq hn.symm⟩
  · exact ⟨.readmore, BitVec.eq_of_toNat_eq hn.symm⟩
  · exact ⟨.isvalid, BitVec.eq_of_toNat_eq hn.symm⟩
  · exact ⟨.getvalueHum, BitVec.eq_of_toNat_eq hn.symm⟩
  · exact ⟨.getvalueTk, BitVec.eq_of_toNat_eq hn.symm⟩
  · exact ⟨.getvalueTc, BitVec.eq_of_toNat_eq hn.symm⟩
  · exact ⟨.getvalueCo2, BitVec.eq_of_toNat_eq hn.symm⟩
  · exact ⟨.getreadingHum, BitVec.eq_of_toNat_eq hn.symm⟩
  · exact ⟨.getreadingTemp, BitVec.eq_of_toNat_eq hn.symm⟩
  · exact ⟨.getreadingCo2, BitVec.eq_of_toNat_eq hn.symm⟩

/-- Every defined command responds without an error. -/
@[simp] theorem commandEffect_rspErr (i : Instr) (s : State) : (commandEffect i s).rspErr = false := by
  cases i <;> rfl

@[simp] theorem wordEffect_rspErr (w : Byte) (s : State) : (wordEffect w s).rspErr = wordReserved w := by
  cases hw : wordReserved w with
  | true =>
    obtain ⟨e, he⟩ := decode_refuses_of_reserved hw
    simp only [wordEffect, he, State.respond_rspErr]
  | false =>
    obtain ⟨i, rfl⟩ := exists_encode_of_not_reserved hw
    simp only [wordEffect, decode_encode, commandEffect_rspErr]

/-! ### The statement -/

theorem accept_of_legal {s : State} (w : Byte) (h : s.cursorLegal) : accept w s = .next (wordEffect w s) := by
  rw [accept_eq, whenLegal_of_legal h]

/-- Settles O50: the next state is the word's effect; the step that is offered the word accepts it, and the effect keeps
the cursor legal and sets the error bit for the reserved words alone. -/
theorem everyWordCompletesInOneStep : Obligations.EveryWordCompletesInOneStep := by
  unfold Obligations.EveryWordCompletesInOneStep
  intro w s hs
  have haccept := accept_of_legal w hs
  refine ⟨wordEffect w s, haccept, ?_, wordEffect_keeps_cursorLegal w hs, ?_⟩
  · exact (step_of_offered rfl).trans haccept
  · rw [wordEffect_rspErr]

end Sys2Proof.Machine
end

section
/-! The construction reset at the input ports (70_reset_and_hazards.md R140, R141). -/

namespace Sys2Proof.Machine

/-- `rst` has priority over `cmd_valid` and `cmd` (R141). -/
@[simp] theorem edgeAction_of_rst (v : Bool) (w : Byte) : edgeAction ⟨true, v, w⟩ = .construct := rfl

/-- At an edge with `rst = 1` the step is the construction reset, whatever the cursor and the offered command (R141). -/
theorem step_of_rst {s : State} {v : Bool} {w : Byte} {rest : List EdgeInput} (h : s.inputs = ⟨true, v, w⟩ :: rest) :
    step s = .next (s.setInputs rest).construct := by
  have hact : s.nextAction = .construct := by rw [State.nextAction, h]; exact edgeAction_of_rst v w
  have hpop : s.popInput = s.setInputs rest := by rw [State.popInput, h]; rfl
  rw [step, hact, ← hpop]

/-- Settles O44: the step is the construction reset, which writes every register and neither the parameter nor the
rest of the schedule. -/
theorem constructionResetHasPriority : Obligations.ConstructionResetHasPriority := by
  unfold Obligations.ConstructionResetHasPriority
  exact fun _ _ _ _ hin => step_of_rst hin

end Sys2Proof.Machine
end

section
/-! Decoding and encoding agree in both directions, and the reserved words are the rest (30_encoding.md R41, R47, R48). -/

namespace Sys2Proof.Machine

@[simp] theorem wellFormed_eq_true (i : Instr) : i.wellFormed = true := by
  cases i <;> rfl

theorem decode_eq_ok_iff (w : Byte) (i : Instr) : decode w = .ok i ↔ encode i = w := by
  refine ⟨encode_of_decode, ?_⟩
  rintro rfl
  exact decode_encode i

/-- A word is reserved exactly when no command has it. -/
theorem wordReserved_iff_forall_encode_ne (w : Byte) : wordReserved w = true ↔ ∀ i, encode i ≠ w := by
  constructor
  · rintro hw i rfl
    rw [wordReserved_encode] at hw
    cases hw
  · intro hne
    by_contra hw
    obtain ⟨i, hi⟩ := exists_encode_of_not_reserved (Bool.eq_false_iff.2 hw)
    exact hne i hi

/-- A word is refused exactly when it is reserved: a word that is not reserved is a command's, and decodes. -/
theorem decode_refuses_iff (w : Byte) : (∃ e, decode w = .error e) ↔ wordReserved w = true := by
  refine ⟨?_, decode_refuses_of_reserved⟩
  rintro ⟨e, he⟩
  rw [wordReserved_iff_forall_encode_ne]
  rintro i rfl
  rw [decode_encode] at he
  cases he

/-- Settles O39: every command is well formed, decoding inverts encoding, and the words that no command has are both the
refused and the reserved ones. -/
theorem decodeInvertsEncode : Obligations.DecodeInvertsEncode := by
  unfold Obligations.DecodeInvertsEncode
  refine ⟨fun w i => ?_, decode_refuses_iff, wordReserved_iff_forall_encode_ne⟩
  rw [decode_eq_ok_iff, wellFormed_eq_true, eq_self_iff_true, true_and]

end Sys2Proof.Machine
end

section
/-! What an accepted word can do (30_encoding.md R40, R47): a defined word is its command, a reserved word only responds.
Facts about words and steps reduce to facts about commands here. -/

namespace Sys2Proof.Machine

/-- Everything an accepted word can answer as a next state. -/
theorem accept_cases {w : Byte} {s t : State} (h : accept w s = .next t) :
    (∃ i, decode w = .ok i ∧ exec i s = .next t) ∨
    (wordReserved w = true ∧ s.cursorLegal ∧ t = s.respond 0x00000000#32 true) := by
  cases hw : decode w with
  | ok i => exact .inl ⟨i, rfl, accept_of_decode hw s ▸ h⟩
  | error e =>
    rw [accept_of_refused hw, execReserved, whenLegal_next] at h
    exact .inr ⟨(decode_refuses_iff w).1 ⟨e, hw⟩, h.1, h.2.symm⟩

/-- The word of a command is performed as that command. -/
@[simp] theorem accept_encode (i : Instr) (s : State) : accept (encode i) s = exec i s :=
  accept_of_decode (decode_encode i) s

/-- A step is the construction reset, an accepted word, or an idle edge of a legal state. -/
theorem step_cases_accept {s t : State} (h : step s = .next t) :
    (s.nextAction = .construct ∧ t = s.popInput.construct) ∨
    (∃ w, s.nextAction = .command w ∧ accept w s.popInput = .next t) ∨
    (s.nextAction = .idle ∧ s.cursorLegal ∧ t = s.popInput) := by
  rcases step_cases h with hc | ⟨w, ha, hl, rfl⟩ | hi
  · exact .inl hc
  · exact .inr (.inl ⟨w, ha, accept_of_legal w (show s.popInput.cursorLegal from hl)⟩)
  · exact .inr (.inr hi)

end Sys2Proof.Machine
end

section
/-! STORE register by register (40_store.md R60, R61, R69): the cursor, the buffer, and outside a completion the flag and
the readings. -/

namespace Sys2Proof.Machine

theorem cursor_succ_toNat {c : BitVec 6} (h : c.toNat < 39) : (c + 1#6).toNat = c.toNat + 1 := by
  bv_omega

/-- A bit short of the last is stored at the cursor, and the cursor counts it. -/
theorem exec_store_of_accumulating {s : State} (b : Bool) (hc : s.cursor.toNat < 39) :
    exec (.store b) s =
      .next (((s.writeBit s.cursor.toNat b).setCursor (s.cursor + 1#6)).respond 0x00000000#32 false) := by
  rw [exec_of_legal (show s.cursor.toNat ≤ 40 by omega), commandEffect, storeBit_accumulating b hc]

theorem exec_store_cursor {b : Bool} {s t : State} (h : exec (.store b) s = .next t) :
    t.cursor.toNat = min (s.cursor.toNat + 1) 40 := by
  rcases store_cases h with ⟨hc, rfl⟩ | ⟨hc, -, rfl⟩ | ⟨hc, -, rfl⟩ | ⟨hc, rfl⟩
  · rw [State.respond_cursor, State.setCursor_cursor, cursor_succ_toNat hc]
    omega
  · rw [hc]
    rfl
  · obtain ⟨hcursor, -⟩ := dispatchTag_frame s.buf[0] (rawValue s.buf)
      (((s.writeBit 39 b).setCursor 40#6).setFrameValid true)
    rw [State.respond_cursor, hcursor, hc]
    rfl
  · rw [State.respond_cursor, hc]
    rfl

theorem exec_store_buf {b : Bool} {s t : State} (h : exec (.store b) s = .next t) :
    t.buf = if s.cursor.toNat < 40 then bufWriteBit s.buf s.cursor.toNat b else s.buf := by
  rcases store_cases h with ⟨hc, rfl⟩ | ⟨hc, -, rfl⟩ | ⟨hc, -, rfl⟩ | ⟨hc, rfl⟩
  · rw [if_pos (by omega)]
    rfl
  · rw [hc]
    rfl
  · obtain ⟨-, hbuf, -⟩ := dispatchTag_frame s.buf[0] (rawValue s.buf)
      (((s.writeBit 39 b).setCursor 40#6).setFrameValid true)
    rw [State.respond_buf, hbuf, hc]
    rfl
  · rw [if_neg (by omega)]
    rfl

theorem exec_store_response {b : Bool} {s t : State} (h : exec (.store b) s = .next t) :
    t.response = (0x00000000#32, false) := by
  rw [(exec_next h).2]
  rfl

theorem exec_store_keeps_of_not_completing {b : Bool} {s t : State} (h : exec (.store b) s = .next t)
    (hc : s.cursor.toNat ≠ 39) : t.frameValid = s.frameValid ∧ s.sameReadings t := by
  rcases store_cases h with ⟨-, rfl⟩ | ⟨h39, -, -⟩ | ⟨h39, -, -⟩ | ⟨-, rfl⟩
  · exact ⟨rfl, rfl, rfl, rfl, rfl, rfl, rfl⟩
  · exact absurd h39 hc
  · exact absurd h39 hc
  · exact ⟨rfl, rfl, rfl, rfl, rfl, rfl, rfl⟩

end Sys2Proof.Machine
end

section
/-! The invariant of the reachable states (10_state.md R15, R21, R22, R27): the construction reset establishes it, and
every command, every word and every step keep it. -/

namespace Sys2Proof.Machine

/-! ### The readings -/

theorem humidityOf_toNat (raw : BitVec 16) : (humidityOf raw).toNat = raw.toNat / 100 := by
  have hraw := raw.isLt
  rw [humidityOf, BitVec.toNat_ofNat]
  exact Nat.mod_eq_of_lt (show raw.toNat / 100 < 2 ^ 10 by omega)

/-- R65: the quotient of a 16-bit raw value is at most 655. -/
theorem humidityOf_le (raw : BitVec 16) : (humidityOf raw).toNat ≤ 655 := by
  have hraw := raw.isLt
  rw [humidityOf_toNat]
  omega

/-- The part of the invariant that speaks of the readings alone. -/
def readingsInv (s : State) : Prop := s.invalidReadsZero ∧ s.humBounded

theorem readingsInv_of_sameReadings {s t : State} (h : s.sameReadings t) (hs : readingsInv s) : readingsInv t := by
  obtain ⟨hv, hq, tv, tr, cv, cr⟩ := h
  unfold readingsInv State.invalidReadsZero State.humBounded at hs ⊢
  rwa [hv, hq, tv, tr, cv, cr] at hs

/-- Dispatch makes the reading it writes valid, and a humidity quotient bounded. -/
theorem readingsInv_dispatchTag (tag : Byte) (raw : BitVec 16) {s : State} (hs : readingsInv s) :
    readingsInv (dispatchTag tag raw s) := by
  obtain ⟨⟨hum, tmp, co2⟩, hb⟩ := hs
  rcases dispatchTag_cases tag raw s with ⟨-, h⟩ | ⟨-, h⟩ | ⟨-, h⟩ | ⟨-, -, -, h⟩ <;> rw [h]
  · exact ⟨⟨nofun, tmp, co2⟩, humidityOf_le raw⟩
  · exact ⟨⟨hum, nofun, co2⟩, hb⟩
  · exact ⟨⟨hum, tmp, nofun⟩, hb⟩
  · exact ⟨⟨hum, tmp, co2⟩, hb⟩

theorem exec_keeps_readingsInv {i : Instr} {s t : State} (h : exec i s = .next t) (hs : readingsInv s) :
    readingsInv t := by
  rcases exec_sameReadings_or_dispatch h with hsame | ⟨-, -, -, u, hu, ht⟩
  · exact readingsInv_of_sameReadings hsame hs
  · exact readingsInv_of_sameReadings ht (readingsInv_dispatchTag _ _ (readingsInv_of_sameReadings hu hs))

/-! ### The tail of the buffer -/

@[simp] theorem bufBit_zero (k : Nat) (hk : k < 40) :
    bufBit #v[0x00#8, 0x00#8, 0x00#8, 0x00#8, 0x00#8] k = false := by
  have hbyte : ∀ i (hi : i < 5), (#v[0x00#8, 0x00#8, 0x00#8, 0x00#8, 0x00#8] : FrameBuf)[i] = 0#8 := by decide
  rw [bufBit_eq _ _ hk, hbyte, BitVec.getLsbD_zero]

/-- STORE writes at the cursor alone and moves the cursor past the bit. -/
theorem exec_store_keeps_tailZero {b : Bool} {s t : State} (h : exec (.store b) s = .next t) (hs : s.tailZero) :
    t.tailZero := by
  intro k hk hck
  rw [exec_store_cursor h] at hck
  rw [exec_store_buf h, if_pos (by omega), bufBit_bufWriteBit _ _ _ _ (by omega) hk, if_neg (by omega)]
  exact hs k hk (by omega)

theorem exec_keeps_tailZero {i : Instr} {s t : State} (h : exec i s = .next t) (hs : s.tailZero) : t.tailZero := by
  cases i with
  | store b => exact exec_store_keeps_tailZero h hs
  | freset =>
    obtain ⟨-, rfl⟩ := exec_next h
    exact fun k hk _ => bufBit_zero k hk
  | _ =>
    obtain ⟨-, rfl⟩ := exec_next h
    exact hs

/-! ### The whole invariant -/

/-- The construction reset establishes the invariant from any state. -/
theorem construct_inv (s : State) : s.construct.Inv :=
  ⟨Nat.zero_le 40, ⟨fun _ => rfl, fun _ => rfl, fun _ => rfl⟩, Nat.zero_le 655, fun k hk _ => bufBit_zero k hk⟩

theorem exec_keeps_inv {i : Instr} {s t : State} (h : exec i s = .next t) (hs : s.Inv) : t.Inv := by
  obtain ⟨hcursor, hzero, hbound, htail⟩ := hs
  obtain ⟨hzero', hbound'⟩ := exec_keeps_readingsInv h ⟨hzero, hbound⟩
  have hcursor' : t.cursorLegal := (exec_next h).2 ▸ commandEffect_keeps_cursorLegal i hcursor
  exact ⟨hcursor', hzero', hbound', exec_keeps_tailZero h htail⟩

theorem accept_keeps_inv {w : Byte} {s t : State} (h : accept w s = .next t) (hs : s.Inv) : t.Inv := by
  rcases accept_cases h with ⟨i, -, hi⟩ | ⟨-, -, rfl⟩
  · exact exec_keeps_inv hi hs
  · exact hs

/-- Settles O49: the construction reset establishes the invariant, an accepted word keeps it, and an idle edge changes
none of the registers it speaks of. -/
theorem stepKeepsInvariant : Obligations.StepKeepsInvariant := by
  unfold Obligations.StepKeepsInvariant
  intro s t hs h
  have hpop : s.popInput.Inv := hs
  rcases step_cases_accept h with ⟨-, rfl⟩ | ⟨w, -, ha⟩ | ⟨-, -, rfl⟩
  · exact construct_inv s.popInput
  · exact accept_keeps_inv ha hpop
  · exact hpop

/-- Settles O48: `State.reset` is what the construction reset leaves of it. -/
theorem resetMeetsInvariant : Obligations.ResetMeetsInvariant := by
  unfold Obligations.ResetMeetsInvariant
  exact construct_inv State.reset

/-- Settles O47, register by register. -/
theorem resetRegisterValues : Obligations.ResetRegisterValues := by
  unfold Obligations.ResetRegisterValues
  have hbuf : ∀ i : Fin 5, State.reset.buf[i] = 0x00#8 := by decide
  exact ⟨rfl, hbuf, rfl, rfl, rfl, rfl, rfl, rfl, rfl, rfl, rfl⟩

end Sys2Proof.Machine
end

section
/-! What a step reads and does not write, the parameter and the host's schedule (00_scope.md R7, 10_state.md R10), and the
valid bits, which only the construction reset clears (10_state.md R22). -/

namespace Sys2Proof.Machine

/-! ### The parameter and the schedule -/

/-- Dispatch writes readings alone, and every other part of a command names the registers it writes. -/
theorem exec_keeps_stepInputs {i : Instr} {s t : State} (h : exec i s = .next t) :
    t.celsiusArith = s.celsiusArith ∧ t.inputs = s.inputs := by
  cases i with
  | store b =>
    rcases store_cases h with ⟨-, rfl⟩ | ⟨-, -, rfl⟩ | ⟨-, -, rfl⟩ | ⟨-, rfl⟩
    case inr.inr.inl =>
      obtain ⟨-, -, -, harith, hinputs⟩ := dispatchTag_frame s.buf[0] (rawValue s.buf)
        (((s.writeBit 39 b).setCursor 40#6).setFrameValid true)
      exact ⟨harith, hinputs⟩
    all_goals exact ⟨rfl, rfl⟩
  | _ =>
    obtain ⟨-, rfl⟩ := exec_next h
    exact ⟨rfl, rfl⟩

theorem accept_keeps_stepInputs {w : Byte} {s t : State} (h : accept w s = .next t) :
    t.celsiusArith = s.celsiusArith ∧ t.inputs = s.inputs := by
  rcases accept_cases h with ⟨i, -, hi⟩ | ⟨-, -, rfl⟩
  · exact exec_keeps_stepInputs hi
  · exact ⟨rfl, rfl⟩

/-- Settles O51: no command writes them, so a step's only write is the edge it takes off. -/
theorem stepInputsAreNotWritten : Obligations.StepInputsAreNotWritten := by
  unfold Obligations.StepInputsAreNotWritten
  refine ⟨fun _ _ _ => exec_keeps_stepInputs, fun s t h => ?_⟩
  rcases step_cases_accept h with ⟨-, rfl⟩ | ⟨w, -, ha⟩ | ⟨-, -, rfl⟩
  · exact ⟨rfl, rfl⟩
  · exact accept_keeps_stepInputs ha
  · exact ⟨rfl, rfl⟩

/-! ### The valid bits -/

/-- Every valid bit that is 1 in `s` is 1 in `t`. -/
def keepsValidBits (s t : State) : Prop :=
  (s.humValid = true → t.humValid = true) ∧ (s.tmpValid = true → t.tmpValid = true) ∧
    (s.co2Valid = true → t.co2Valid = true)

theorem keepsValidBits_of_sameReadings {s t : State} (h : s.sameReadings t) : keepsValidBits s t := by
  obtain ⟨hv, -, tv, -, cv, -⟩ := h
  exact ⟨hv.symm.trans, tv.symm.trans, cv.symm.trans⟩

/-- Dispatch sets valid bits and clears none. -/
theorem keepsValidBits_dispatchTag (tag : Byte) (raw : BitVec 16) (s : State) :
    keepsValidBits s (dispatchTag tag raw s) := by
  rcases dispatchTag_cases tag raw s with ⟨-, h⟩ | ⟨-, h⟩ | ⟨-, h⟩ | ⟨-, -, -, h⟩ <;> rw [h]
  · exact ⟨fun _ => rfl, id, id⟩
  · exact ⟨id, fun _ => rfl, id⟩
  · exact ⟨id, id, fun _ => rfl⟩
  · exact ⟨id, id, id⟩

theorem keepsValidBits.trans {s t u : State} (hst : keepsValidBits s t) (htu : keepsValidBits t u) :
    keepsValidBits s u := by
  obtain ⟨hum, tmp, co2⟩ := hst
  obtain ⟨hum', tmp', co2'⟩ := htu
  exact ⟨hum' ∘ hum, tmp' ∘ tmp, co2' ∘ co2⟩

theorem exec_keepsValidBits {i : Instr} {s t : State} (h : exec i s = .next t) : keepsValidBits s t := by
  rcases exec_sameReadings_or_dispatch h with hsame | ⟨-, -, -, u, hu, ht⟩
  · exact keepsValidBits_of_sameReadings hsame
  · exact ((keepsValidBits_of_sameReadings hu).trans (keepsValidBits_dispatchTag _ _ u)).trans
      (keepsValidBits_of_sameReadings ht)

/-- Settles O52: a command or a reserved word clears no valid bit, and an idle edge writes none. -/
theorem validBitsStayUntilConstructionReset : Obligations.ValidBitsStayUntilConstructionReset := by
  unfold Obligations.ValidBitsStayUntilConstructionReset
  intro s t h hedge
  rcases step_cases_accept h with ⟨hreset, -⟩ | ⟨w, -, ha⟩ | ⟨-, -, rfl⟩
  · exact absurd hreset hedge
  · rcases accept_cases ha with ⟨i, -, hi⟩ | ⟨-, -, rfl⟩
    · exact exec_keepsValidBits (s := s.popInput) hi
    · exact ⟨id, id, id⟩
  · exact ⟨id, id, id⟩

end Sys2Proof.Machine
end

section
/-! Runs (20_memory.md R38, 70_reset_and_hazards.md R150): a run from a state that meets the invariant reaches its end, a
run composes from its parts, and stepping the machine through a schedule of words is their run. -/

namespace Sys2Proof.Machine

/-! ### Runs reach their end -/

/-- Settles O57, by induction on the words: the first is accepted, since the cursor is legal, and keeps the invariant. -/
theorem runsNeverStop : Obligations.RunsNeverStop := by
  unfold Obligations.RunsNeverStop
  intro ws
  induction ws with
  | nil => exact fun s hs => ⟨⟨[], s⟩, rfl, rfl, hs⟩
  | cons w ws ih =>
    intro s hs
    have haccept := accept_of_legal w hs.1
    obtain ⟨o, ho, hlen, hinv⟩ := ih (wordEffect w s) (accept_keeps_inv haccept hs)
    exact ⟨_, run_cons_next haccept ho, congrArg (· + 1) hlen, hinv⟩

/-! ### Runs compose -/

@[simp] theorem run_nil (s : State) : run [] s = .next ⟨[], s⟩ := rfl

theorem run_singleton {w : Byte} {s t : State} (h : accept w s = .next t) :
    run [w] s = .next ⟨[t.response], t⟩ := run_cons_next h (run_nil t)

theorem run_append {ws vs : List Byte} {s : State} {o p : Observation} (ho : run ws s = .next o)
    (hp : run vs o.final = .next p) : run (ws ++ vs) s = .next ⟨o.responses ++ p.responses, p.final⟩ := by
  induction ws generalizing s o with
  | nil =>
    cases ho
    exact hp
  | cons w ws ih =>
    obtain ⟨t, o', ha, ho', rfl⟩ := run_cons_cases ho
    exact run_cons_next ha (ih ho' hp)

/-- Every run of two lists in a row falls apart where they meet. -/
theorem run_append_cases {ws vs : List Byte} {s : State} {q : Observation} (h : run (ws ++ vs) s = .next q) :
    ∃ o p, run ws s = .next o ∧ run vs o.final = .next p ∧ q = ⟨o.responses ++ p.responses, p.final⟩ := by
  induction ws generalizing s q with
  | nil => exact ⟨⟨[], s⟩, q, rfl, h, rfl⟩
  | cons w ws ih =>
    obtain ⟨t, q', ha, hq, rfl⟩ := run_cons_cases h
    obtain ⟨o, p, ho, hp, rfl⟩ := ih hq
    exact ⟨_, p, run_cons_next ha ho, hp, rfl⟩

/-- READMORE, FRESET, READMORE from FrameComplete: the second READMORE sees the cursor that FRESET cleared. -/
theorem run_readmore_freset_readmore {s : State} (h : s.cursor.toNat = 40) :
    ∃ t, run [0x20#8, 0x10#8, 0x20#8] s =
      .next ⟨[(0x00000000#32, false), (0x00000000#32, false), (0x00000001#32, false)], t⟩ := by
  have hs : s.cursorLegal := h.le
  have hread : accept (encode .readmore) s = .next (s.respond 0x00000000#32 false) := by
    rw [accept_encode, exec_readmore_of_legal hs, if_neg (by omega)]
  have hreset : accept (encode .freset) (s.respond 0x00000000#32 false) =
      .next ((s.clearBuf.setCursor 0#6).respond 0x00000000#32 false) := by
    rw [accept_encode]
    exact exec_freset_of_legal hs
  have hread' : accept (encode .readmore) ((s.clearBuf.setCursor 0#6).respond 0x00000000#32 false) =
      .next ((s.clearBuf.setCursor 0#6).respond 0x00000001#32 false) := by
    have hclear : ((s.clearBuf.setCursor 0#6).respond 0x00000000#32 false).cursorLegal := Nat.zero_le 40
    rw [accept_encode, exec_readmore_of_legal hclear]
    rfl
  exact ⟨_, run_cons_next hread (run_cons_next hreset (run_singleton hread'))⟩

/-- Settles O56: one word by `accept`, the two laws of composition by induction on the first list, and the three words
that tell the order. -/
theorem runsCompose : Obligations.RunsCompose := by
  unfold Obligations.RunsCompose
  refine ⟨run_nil, fun w i s t hw hi => ?_, fun w s hw hs => run_singleton (accept_of_reserved hw hs),
    fun _ _ _ _ _ => run_append, fun _ _ _ _ => run_append_cases, fun _ => run_readmore_freset_readmore⟩
  have ha : accept w s = .next t := (accept_of_decode hw s).trans hi
  exact ⟨ha, run_singleton ha⟩

/-! ### Stepping through a schedule -/

/-- The edges at which the host offers the words one by one, before the edges `rest`. -/
def schedule (ws : List Byte) (rest : List EdgeInput) : List EdgeInput :=
  (ws.map fun w => ⟨false, true, w⟩) ++ rest

/-- The schedule plays no part in accepting a word. -/
theorem accept_setInputs {w : Byte} {s t : State} (l : List EdgeInput) (h : accept w s = .next t) :
    accept w (s.setInputs l) = .next (t.setInputs l) := by
  rw [accept_eq, whenLegal_next] at h
  obtain ⟨hs, rfl⟩ := h
  rw [accept_of_legal w (show (s.setInputs l).cursorLegal from hs), wordEffect_setInputs]

/-- One step accepts the first of the scheduled words; the machine goes on with the others. -/
theorem coreRun_schedule_succ {w : Byte} {s t : State} (ws : List Byte) (rest : List EdgeInput) (k : Nat)
    (h : accept w s = .next t) :
    Host.Core.run core (k + 1) (s.setInputs (schedule (w :: ws) rest)) =
      Host.Core.run core k (t.setInputs (schedule ws rest)) := by
  have hstep : step (s.setInputs (schedule (w :: ws) rest)) = .next (t.setInputs (schedule ws rest)) := by
    rw [step_of_offered (rest := schedule ws rest) rfl]
    exact accept_setInputs (s := s) (schedule ws rest) h
  exact coreRun_succ (M := core) hstep

theorem run_responses_length {ws : List Byte} {s : State} {o : Observation} (h : run ws s = .next o) :
    o.responses.length = ws.length := by
  induction ws generalizing s o with
  | nil => cases h; rfl
  | cons w ws ih =>
    obtain ⟨t, p, -, hp, rfl⟩ := run_cons_cases h
    exact congrArg (· + 1) (ih hp)

/-- As many steps as there are words end in the run's final state, with the edges after the words still to come. -/
theorem coreRun_schedule_final {ws : List Byte} {s : State} {o : Observation} (rest : List EdgeInput)
    (h : run ws s = .next o) :
    Host.Core.run core ws.length (s.setInputs (schedule ws rest)) = .next (o.final.setInputs rest) := by
  induction ws generalizing s o with
  | nil => cases h; rfl
  | cons w ws ih =>
    obtain ⟨t, p, ha, hp, rfl⟩ := run_cons_cases h
    have hlater := ih hp
    exact (coreRun_schedule_succ ws rest ws.length ha).trans hlater

/-- After the step of a word the response register holds that word's response. -/
theorem coreRun_schedule_response {ws : List Byte} {s : State} {o : Observation} (rest : List EdgeInput)
    (h : run ws s = .next o) {k : Nat} (hk : k < ws.length) :
    ∃ t, Host.Core.run core (k + 1) (s.setInputs (schedule ws rest)) = .next t ∧
      o.responses[k]? = some (State.response t) := by
  induction ws generalizing s o k with
  | nil => exact absurd hk (Nat.not_lt_zero k)
  | cons w ws ih =>
    obtain ⟨t, p, ha, hp, rfl⟩ := run_cons_cases h
    have hstep := coreRun_schedule_succ ws rest k ha
    cases k with
    | zero => exact ⟨t.setInputs (schedule ws rest), hstep, rfl⟩
    | succ k =>
      obtain ⟨u, hu, hresp⟩ := ih hp (Nat.lt_of_succ_lt_succ hk)
      exact ⟨u, hstep.trans hu, hresp⟩

theorem run_final_inputs {ws : List Byte} {s : State} {o : Observation} (h : run ws s = .next o) :
    o.final.inputs = s.inputs := by
  induction ws generalizing s o with
  | nil => cases h; rfl
  | cons w ws ih =>
    obtain ⟨t, p, ha, hp, rfl⟩ := run_cons_cases h
    exact (ih hp).trans (accept_keeps_stepInputs ha).2

/-- Settles O58: the machine's steps through the scheduled words, by induction on the words. -/
theorem steppingTheScheduleIsTheRun : Obligations.SteppingTheScheduleIsTheRun := by
  unfold Obligations.SteppingTheScheduleIsTheRun
  intro ws rest s o h
  have hrun : run ws (s.setInputs rest) = .next o := h
  have hfinal : o.final.setInputs rest = o.final := by
    rw [← show o.final.inputs = rest from run_final_inputs hrun]
    rfl
  refine ⟨run_responses_length hrun, fun k hk => coreRun_schedule_response rest hrun hk, ?_⟩
  rw [← hfinal]
  exact coreRun_schedule_final (s := s.setInputs rest) rest hrun

end Sys2Proof.Machine
end

section
/-! What STORE and the other commands change and leave unchanged, one statement each: STORE (40_store.md section 1,
10_state.md section 7), `frame_valid` (10_state.md R14) and the phase (10_state.md R18). -/

namespace Sys2Proof.Machine

/-! ### STORE -/

/-- Settles O2: the ordinary STORE writes position `cursor`, and no other position reads that bit. -/
theorem storeFillsTheNextPosition : Obligations.StoreFillsTheNextPosition := by
  unfold Obligations.StoreFillsTheNextPosition
  intro b s hc
  exact ⟨_, exec_store_of_accumulating b hc, cursor_succ_toNat hc,
    fun k hk => bufBit_bufWriteBit s.buf s.cursor.toNat k b (by omega) hk, rfl⟩

/-- Settles O9: the buffer and the cursor of the next state by their equations, and a STORE that completes no frame writes
neither the flag nor a reading. -/
theorem storeFrame : Obligations.StoreFrame := by
  unfold Obligations.StoreFrame
  intro b s t h
  obtain ⟨harith, hinputs⟩ := exec_keeps_stepInputs h
  have hcursor := exec_store_cursor h
  have hbuf := exec_store_buf h
  have hrsp := exec_store_response h
  refine ⟨congrArg Prod.fst hrsp, congrArg Prod.snd hrsp, harith, hinputs, fun k hk hne => ?other,
    fun hc => ⟨?buffer, ?cursor⟩, exec_store_keeps_of_not_completing h⟩
  case other =>
    rw [hbuf]
    split
    · rw [bufBit_bufWriteBit _ _ _ _ ‹_› hk, if_neg hne]
    · rfl
  case buffer => rw [hbuf, if_neg (by omega)]
  case cursor => exact BitVec.eq_of_toNat_eq (by omega)

/-! ### The flag -/

theorem exec_frameValid_of_not_store {i : Instr} {s t : State} (h : exec i s = .next t) (hi : ∀ b, i ≠ .store b) :
    t.frameValid = s.frameValid := by
  obtain ⟨-, rfl⟩ := exec_next h
  cases i with
  | store b => exact absurd rfl (hi b)
  | _ => rfl

/-- Settles O11: a command that is no STORE, or a STORE at another cursor than 39, keeps the flag. -/
theorem onlyCompletingStoreWritesFrameValid : Obligations.OnlyCompletingStoreWritesFrameValid := by
  unfold Obligations.OnlyCompletingStoreWritesFrameValid
  intro i s t h hflag
  obtain ⟨b, rfl⟩ : ∃ b, i = .store b := by
    by_contra hi
    exact hflag (exec_frameValid_of_not_store h (not_exists.1 hi))
  have hc : s.cursor.toNat = 39 := by
    by_contra hc
    exact hflag (exec_store_keeps_of_not_completing h hc).1
  refine ⟨⟨b, rfl⟩, hc, ?_⟩
  rw [exec_store_cursor h, hc]
  rfl

/-! ### The phase -/

theorem phase_of_cursor_lt {s : State} (h : s.cursor.toNat < 40) : phase s = .accumulating s.cursor.toNat := if_pos h

theorem phase_of_cursor_eq {s : State} (h : s.cursor.toNat = 40) : phase s = .frameComplete := if_neg (by simp [h])

/-- Settles O14: the phase is a function of the cursor, which STORE raises up to 40, FRESET clears and a query keeps. -/
theorem phaseTransitions : Obligations.PhaseTransitions := by
  unfold Obligations.PhaseTransitions
  intro i s t h
  cases i with
  | store b =>
    have hcursor := exec_store_cursor h
    refine ⟨fun hc => ?_, fun hc => phase_of_cursor_eq (by omega), fun hc => phase_of_cursor_eq (by omega)⟩
    have hnext : t.cursor.toNat = s.cursor.toNat + 1 := by omega
    rw [phase_of_cursor_lt (by omega), hnext]
  | _ =>
    obtain ⟨-, rfl⟩ := exec_next h
    rfl

end Sys2Proof.Machine
end

section
/-! The queries (20_memory.md R37, 10_state.md R25, 42_readout.md R100): each writes only the response, which depends on
nothing that is hidden. -/

namespace Sys2Proof.Machine

/-- A query does not read the response register. -/
theorem commandEffect_query_respond {i : Instr} (hi : isQuery i = true) (s : State) (d : Word) (e : Bool) :
    commandEffect i (s.respond d e) = commandEffect i s := by
  cases i with
  | store b => cases hi
  | freset => cases hi
  | _ => rfl

/-- Settles O25: a query is one response, and it answers the same after a response. -/
theorem queriesWriteOnlyTheResponse : Obligations.QueriesWriteOnlyTheResponse := by
  unfold Obligations.QueriesWriteOnlyTheResponse
  intro i s t hi h
  obtain ⟨hs, ht⟩ := exec_next h
  obtain ⟨d, hd⟩ := commandEffect_query hi s
  rw [hd] at ht
  subst ht
  refine ⟨rfl, ?_⟩
  rw [exec_of_legal (show (s.respond d false).cursorLegal from hs), commandEffect_query_respond hi, hd]

/-- The answer of a readout is a function of the readings and the parameter. -/
theorem readout_response_congr {i : Instr} (hi : isReadout i = true) {s s' : State} (hr : s.sameReadings s')
    (ha : s.celsiusArith = s'.celsiusArith) : (commandEffect i s).response = (commandEffect i s').response := by
  obtain ⟨hv, hq, tv, tr, cv, cr⟩ := hr
  cases i with
  | store b => cases hi
  | freset => cases hi
  | readmore => cases hi
  | isvalid => cases hi
  | _ => simp only [commandEffect, State.respond_response, hv, hq, tv, tr, cv, cr, ha]

/-- Settles O26: the answer of a readout as a function of the readings and the parameter. -/
theorem readoutDependsOnReadingsAlone : Obligations.ReadoutDependsOnReadingsAlone := by
  unfold Obligations.ReadoutDependsOnReadingsAlone
  intro i s s' t t' hi hr ha h h'
  obtain ⟨-, rfl⟩ := exec_next h
  obtain ⟨-, rfl⟩ := exec_next h'
  exact readout_response_congr hi hr ha

theorem isQuery_cases {i : Instr} (hi : isQuery i = true) : isReadout i = true ∨ i = .readmore ∨ i = .isvalid := by
  cases i with
  | store b => cases hi
  | freset => cases hi
  | readmore => exact .inr (.inl rfl)
  | isvalid => exact .inr (.inr rfl)
  | _ => exact .inl rfl

/-- Settles O27: of the two queries that are no readouts, READMORE sees the cursor only through the test against 40, and
ISVALID sees the flag. -/
theorem bufferAndCursorAreHiddenFromQueries : Obligations.BufferAndCursorAreHiddenFromQueries := by
  unfold Obligations.BufferAndCursorAreHiddenFromQueries
  intro i s s' t t' hi hr hflag hcursor ha h h'
  obtain ⟨hs, rfl⟩ := exec_next h
  obtain ⟨hs', rfl⟩ := exec_next h'
  rcases isQuery_cases hi with hi | rfl | rfl
  · exact readout_response_congr hi hr ha
  · simp only [commandEffect, State.respond_response, hcursor]
  · simp only [commandEffect, State.respond_response, hflag]

/-- GETREADING of an invalid reading whose value register is 0 answers 0. -/
theorem exec_reading_of_invalid {i : Instr} {s : State} {v : Bool} {x : BitVec 16}
    (he : commandEffect i s = s.respond (readingWord v x) false) (hs : s.cursorLegal) (hv : v = false)
    (hx : x = 0#16) : exec i s = .next (s.respond 0x00000000#32 false) := by
  rw [exec_reading he hs, hv, hx]
  simp

/-- Settles O29: an invalid reading answers GETVALUE with the sentinel, and GETREADING with its valid bit and its value
register, which are both 0. -/
theorem readoutsAreZeroWithoutAValidFrame : Obligations.ReadoutsAreZeroWithoutAValidFrame := by
  unfold Obligations.ReadoutsAreZeroWithoutAValidFrame
  intro i s hi hs ⟨hum, tmp, co2⟩ hv tv cv
  cases i with
  | store b => cases hi
  | freset => cases hi
  | readmore => cases hi
  | isvalid => cases hi
  | getvalueHum => exact exec_value_of_invalid rfl hs hv
  | getvalueTk => exact exec_value_of_invalid rfl hs tv
  | getvalueTc => exact exec_value_of_invalid rfl hs tv
  | getvalueCo2 => exact exec_value_of_invalid rfl hs cv
  | getreadingHum => exact exec_reading_of_invalid rfl hs hv (by rw [hum hv]; rfl)
  | getreadingTemp => exact exec_reading_of_invalid rfl hs tv (tmp tv)
  | getreadingCo2 => exact exec_reading_of_invalid rfl hs cv (co2 cv)

end Sys2Proof.Machine
end

section
/-! The validator's arithmetic (40_store.md R62, R70) and the frame as one word (30_encoding.md R46). -/

namespace Sys2Proof.Machine

/-! ### Arithmetic -/

/-- The sum taken without wrap and then reduced is the wrapping sum. -/
theorem checksum_eq_add (a b c : Byte) : checksum a b c = a + b + c := by
  apply BitVec.eq_of_toNat_eq
  rw [checksum, Config.checksumModulus, BitVec.toNat_ofNat, BitVec.toNat_add, BitVec.toNat_add]
  omega

/-- Settles O12: wrapping addition commutes and associates; the raw value and the quotient in numbers. -/
theorem validatorArithmeticLaws : Obligations.ValidatorArithmeticLaws := by
  unfold Obligations.ValidatorArithmeticLaws
  refine ⟨fun a b c => ⟨checksum_eq_add a b c, ?rotate, ?swap⟩, rawValue_toNat,
    fun raw => ⟨humidityOf_toNat raw, humidityOf_le raw⟩⟩
  case rotate => rw [checksum_eq_add, checksum_eq_add, BitVec.add_comm (a + b), BitVec.add_assoc]
  case swap => rw [checksum_eq_add, checksum_eq_add, BitVec.add_comm a]

/-! ### The frame word -/

theorem getLsbD_append_high {n m : Nat} (x : BitVec n) (y : BitVec m) (k : Nat) :
    (x ++ y).getLsbD (m + k) = x.getLsbD k := by
  rw [BitVec.getLsbD_append, if_neg (by omega), Nat.add_sub_cancel_left]

theorem getLsbD_append_low {n m : Nat} (x : BitVec n) (y : BitVec m) {k : Nat} (hk : k < m) :
    (x ++ y).getLsbD k = y.getLsbD k := by
  rw [BitVec.getLsbD_append, if_pos hk]

/-- Byte `i` of the buffer is byte `i` of the frame word, counted from the top. -/
theorem frameWord_getLsbD (buf : FrameBuf) {i j : Nat} (hi : i < 5) (hj : j < 8) :
    (frameWord buf).getLsbD (8 * (4 - i) + j) = buf[i].getLsbD j := by
  change BitVec.getLsbD (w := 8 + 8 + 8 + 8 + 8) (buf[0] ++ buf[1] ++ buf[2] ++ buf[3] ++ buf[4]) _ = _
  match i, hi with
  | 0, _ =>
    rw [show 8 * (4 - 0) + j = 8 + (8 + (8 + (8 + j))) by omega, getLsbD_append_high, getLsbD_append_high,
      getLsbD_append_high, getLsbD_append_high]
  | 1, _ =>
    rw [show 8 * (4 - 1) + j = 8 + (8 + (8 + j)) by omega, getLsbD_append_high, getLsbD_append_high,
      getLsbD_append_high, getLsbD_append_low _ _ hj]
  | 2, _ =>
    rw [show 8 * (4 - 2) + j = 8 + (8 + j) by omega, getLsbD_append_high, getLsbD_append_high,
      getLsbD_append_low _ _ hj]
  | 3, _ => rw [show 8 * (4 - 3) + j = 8 + j by omega, getLsbD_append_high, getLsbD_append_low _ _ hj]
  | 4, _ => rw [show 8 * (4 - 4) + j = j by omega, getLsbD_append_low _ _ hj]

theorem frameWord_byte (buf : FrameBuf) {i : Nat} (hi : i < 5) : (frameWord buf).extractLsb' (8 * (4 - i)) 8 = buf[i] := by
  apply BitVec.eq_of_getLsbD_eq
  intro j hj
  rw [BitVec.getLsbD_extractLsb', frameWord_getLsbD buf hi hj]
  simp [hj]

/-- The two value bytes of the frame word are the raw value. -/
theorem frameWord_rawValue (buf : FrameBuf) : (frameWord buf).extractLsb' 16 16 = rawValue buf := by
  have hbytes := BitVec.extractLsb'_append_extractLsb'_eq_extractLsb' (x := frameWord buf) (start₁ := 16)
    (start₂ := 24) (len₁ := 8) (len₂ := 8) (by decide)
  refine hbytes.symm.trans ?_
  rw [rawValue, ← frameWord_byte buf (by decide : 1 < 5), ← frameWord_byte buf (by decide : 2 < 5)]

/-- Settles O13: a position is a byte and a bit of it, and the fields are the bytes. -/
theorem wireFrameLayout : Obligations.WireFrameLayout := by
  unfold Obligations.WireFrameLayout
  refine fun buf => ⟨fun n hn => ?_, frameWord_byte buf (i := 0) (by decide), frameWord_byte buf (i := 1) (by decide),
    frameWord_byte buf (i := 2) (by decide), frameWord_byte buf (i := 3) (by decide),
    frameWord_byte buf (i := 4) (by decide), frameWord_rawValue buf⟩
  have hpos : 39 - n = 8 * (4 - n / 8) + (7 - n % 8) := by omega
  rw [hpos, frameWord_getLsbD buf (by omega) (by omega), bufBit_eq buf n hn]

end Sys2Proof.Machine
end

section
/-! The input ports (30_encoding.md R40) and the assembler's command lines (R49). -/

namespace Sys2Proof.Machine

/-! ### An offered word -/

theorem tableWord_toNat (w : Byte) : tableWord 8 w.toNat = w := by
  apply BitVec.eq_of_toNat_eq
  have hw := w.isLt
  rw [tableWord, BitVec.toNat_ofNat]
  omega

/-- Offering a word and stepping is accepting it. -/
theorem step_withFetchWord (s : State) (w : Byte) : step (s.withFetchWord 8 w.toNat) = accept w s := by
  rw [State.withFetchWord, tableWord_toNat, step_of_offered (rest := s.inputs) rfl]
  rfl

/-- Settles O42: the step accepts the offered word, and a word that decodes is its command. -/
theorem stepRunsTheDecodedCommand : Obligations.StepRunsTheDecodedCommand := by
  unfold Obligations.StepRunsTheDecodedCommand
  refine ⟨fun s w rest i hin hw => ?_, fun s w i hw => ?_⟩
  · rw [step_of_offered hin, accept_of_decode hw]
    rfl
  · rw [step_withFetchWord, accept_of_decode hw]

/-! ### An idle edge -/

theorem step_of_exhausted {s : State} (h : s.inputs = []) : step s = whenLegal s s := by
  have hact : s.nextAction = .idle := by rw [State.nextAction, h]
  have hpop : s.popInput = s := by
    rw [State.popInput, h, List.tail_nil, ← h]
    rfl
  rw [step, hact, hpop]

/-- At an edge with `rst = 0` and `cmd_valid = 0` the word on `cmd` is not looked at. -/
theorem step_of_not_offered {s : State} {w : Byte} {rest : List EdgeInput} (h : s.inputs = ⟨false, false, w⟩ :: rest) :
    step s = whenLegal s (s.setInputs rest) := by
  have hact : s.nextAction = .idle := by
    rw [State.nextAction, h]
    rfl
  have hpop : s.popInput = s.setInputs rest := by
    rw [State.popInput, h]
    rfl
  rw [step, hact, ← hpop]

/-- Settles O45: an idle edge of a legal state. -/
theorem idleEdgeChangesNothing : Obligations.IdleEdgeChangesNothing := by
  unfold Obligations.IdleEdgeChangesNothing
  refine fun s hs => ⟨fun hin => ?_, fun w rest hin => ?_⟩
  · rw [step_of_exhausted hin, whenLegal_of_legal hs]
  · rw [step_of_not_offered hin, whenLegal_of_legal hs]
    rfl

/-! ### An illegal cursor -/

theorem accept_of_illegal {s : State} (w : Byte) (h : ¬s.cursorLegal) : accept w s = .fault .cursorOutOfRange := by
  rw [accept_eq, whenLegal_of_illegal h]

/-- Settles O46: every command, word and idle edge goes through the test of the cursor. -/
theorem illegalCursorFaults : Obligations.IllegalCursorFaults := by
  unfold Obligations.IllegalCursorFaults
  intro s hc
  have hs : ¬s.cursorLegal := Nat.not_le.2 hc
  refine ⟨fun i => ?_, fun w => accept_of_illegal w hs, fun hin => ?_, ?_⟩
  · rw [exec_eq, whenLegal_of_illegal hs]
  · rw [step_of_exhausted hin, whenLegal_of_illegal hs]
  · rintro ⟨rst, valid, w⟩ rest hin rfl
    cases valid with
    | true =>
      rw [step_of_offered hin]
      exact accept_of_illegal w (show ¬(s.setInputs rest).cursorLegal from hs)
    | false => rw [step_of_not_offered hin, whenLegal_of_illegal hs]

/-! ### The assembler -/

theorem assembleLine_asmText (i : Instr) : assembleLine (asmText i) = .ok [encode i] := by
  cases i with
  | store b => cases b <;> rfl
  | _ => rfl

/-- Settles O41: one line for each command, and one with a raw word. -/
theorem assemblerEmitsTheCommandWord : Obligations.AssemblerEmitsTheCommandWord := by
  unfold Obligations.AssemblerEmitsTheCommandWord
  exact ⟨assembleLine_asmText, rfl⟩

end Sys2Proof.Machine
end

section
/-! Whole frames as sequences of STOREs (40_store.md section 5, R71, R72; 30_encoding.md R50): bits short of the fortieth
fill the buffer, the fortieth decodes the frame, and bits after it change nothing. -/

namespace Sys2Proof.Machine

/-! ### Bits short of the fortieth -/

/-- `t` differs from `s` at most in the cursor, the buffer and the response. -/
def sameOutsideFrame (s t : State) : Prop :=
  t.frameValid = s.frameValid ∧ s.sameReadings t ∧ t.celsiusArith = s.celsiusArith ∧ t.inputs = s.inputs

theorem sameOutsideFrame.refl (s : State) : sameOutsideFrame s s :=
  ⟨rfl, ⟨rfl, rfl, rfl, rfl, rfl, rfl⟩, rfl, rfl⟩

theorem sameOutsideFrame.trans {s t u : State} (hst : sameOutsideFrame s t) (htu : sameOutsideFrame t u) :
    sameOutsideFrame s u := by
  obtain ⟨hflag, ⟨hv, hq, tv, tr, cv, cr⟩, harith, hinputs⟩ := hst
  obtain ⟨hflag', ⟨hv', hq', tv', tr', cv', cr'⟩, harith', hinputs'⟩ := htu
  exact ⟨hflag'.trans hflag, ⟨hv.trans hv', hq.trans hq', tv.trans tv', tr.trans tr', cv.trans cv', cr.trans cr'⟩,
    harith'.trans harith, hinputs'.trans hinputs⟩

/-- One bit short of the fortieth: it stands at the cursor, and the other positions keep theirs. -/
theorem exec_store_accumulates {s : State} (b : Bool) (hc : s.cursor.toNat < 39) :
    ∃ t, exec (.store b) s = .next t ∧ t.cursor.toNat = s.cursor.toNat + 1 ∧ sameOutsideFrame s t ∧
      ∀ k, k < 40 → bufBit t.buf k = if k = s.cursor.toNat then b else bufBit s.buf k :=
  ⟨_, exec_store_of_accumulating b hc, cursor_succ_toNat hc, sameOutsideFrame.refl s,
    fun k hk => bufBit_bufWriteBit s.buf s.cursor.toNat k b (by omega) hk⟩

/-- Bits short of the fortieth stand from the cursor on, in order, below them the old bits. -/
theorem issue_stores_accumulate {bits : List Bool} {s : State} (h : s.cursor.toNat + bits.length < 40) :
    ∃ t, issue (bits.map .store) s = .next t ∧ t.cursor.toNat = s.cursor.toNat + bits.length ∧ sameOutsideFrame s t ∧
      (∀ k, k < s.cursor.toNat → bufBit t.buf k = bufBit s.buf k) ∧
      ∀ k b, bits[k]? = some b → bufBit t.buf (s.cursor.toNat + k) = b := by
  induction bits generalizing s with
  | nil => exact ⟨s, rfl, rfl, sameOutsideFrame.refl s, fun _ _ => rfl, nofun⟩
  | cons b bits ih =>
    rw [List.length_cons] at h
    obtain ⟨u, hu, hcu, hsu, hbu⟩ := exec_store_accumulates (s := s) b (by omega)
    obtain ⟨t, ht, hct, hst, hbelow, habove⟩ := ih (s := u) (by omega)
    refine ⟨t, (issue_cons_next hu).trans ht, by rw [hct, hcu, List.length_cons]; omega, hsu.trans hst,
      fun k hk => ?below, fun k b' hk => ?above⟩
    case below => rw [hbelow k (by omega), hbu k (by omega), if_neg (by omega)]
    case above =>
      cases k with
      | zero =>
        cases hk
        rw [Nat.add_zero, hbelow _ (by omega), hbu _ (by omega), if_pos rfl]
      | succ k =>
        rw [show s.cursor.toNat + (k + 1) = u.cursor.toNat + k by omega]
        exact habove k b' hk

/-- Settles O54: such bits leave everything but the cursor, the buffer and the response. -/
theorem incompleteFrameRunsNoValidation : Obligations.IncompleteFrameRunsNoValidation := by
  unfold Obligations.IncompleteFrameRunsNoValidation
  intro s bits h
  obtain ⟨t, ht, hcursor, ⟨hflag, hreadings, -, -⟩, -⟩ := issue_stores_accumulate h
  exact ⟨t, ht, hcursor, hflag, hreadings⟩

/-! ### Bits after the fortieth -/

theorem exec_store_overrun {s : State} (b : Bool) (hc : s.cursor.toNat = 40) :
    exec (.store b) s = .next (s.respond 0x00000000#32 false) :=
  storeInFrameCompleteIsRejected b s hc

/-- After one rejected bit any more of them change nothing at all. -/
theorem issue_stores_overrun {s : State} (hc : s.cursor.toNat = 40) (bits : List Bool) :
    issue (bits.map .store) (s.respond 0x00000000#32 false) = .next (s.respond 0x00000000#32 false) := by
  induction bits with
  | nil => rfl
  | cons b bits ih => exact (issue_cons_next (exec_store_overrun (s := s.respond 0x00000000#32 false) b hc)).trans ih

/-- Settles O55: the first bit writes the response, and the others write the same again. -/
theorem overrunBitsChangeNothing : Obligations.OverrunBitsChangeNothing := by
  unfold Obligations.OverrunBitsChangeNothing
  intro s bits hc hne
  cases bits with
  | nil => exact absurd rfl hne
  | cons b bits => exact (issue_cons_next (exec_store_overrun b hc)).trans (issue_stores_overrun hc bits)

/-! ### The fortieth bit -/

/-- What dispatch leaves in each reading. -/
theorem dispatchTag_readings (tag : Byte) (raw : BitVec 16) (s : State) :
    ((dispatchTag tag raw s).humValid, (dispatchTag tag raw s).humQ) =
      (if tag = 0x41#8 then (true, humidityOf raw) else (s.humValid, s.humQ)) ∧
    ((dispatchTag tag raw s).tmpValid, (dispatchTag tag raw s).tmpRaw) =
      (if tag = 0x42#8 then (true, raw) else (s.tmpValid, s.tmpRaw)) ∧
    ((dispatchTag tag raw s).co2Valid, (dispatchTag tag raw s).co2Raw) =
      (if tag = 0x50#8 then (true, raw) else (s.co2Valid, s.co2Raw)) := by
  rcases dispatchTag_cases tag raw s with ⟨ht, h⟩ | ⟨ht, h⟩ | ⟨ht, h⟩ | ⟨hum, temp, co2, h⟩ <;> rw [h]
  · subst ht; exact ⟨rfl, rfl, rfl⟩
  · subst ht; exact ⟨rfl, rfl, rfl⟩
  · subst ht; exact ⟨rfl, rfl, rfl⟩
  · rw [if_neg hum, if_neg temp, if_neg co2]
    exact ⟨rfl, rfl, rfl⟩

/-- The fortieth bit decodes the frame that it completes. -/
theorem exec_store_decodes {b : Bool} {s t : State} {b0 b1 b2 b3 b4 : Byte} (h : exec (.store b) s = .next t)
    (hc : s.cursor.toNat = 39) (hframe : bufWriteBit s.buf 39 b = #v[b0, b1, b2, b3, b4]) :
    s.frameDecoded t b0 b1 b2 b3 b4 := by
  have hbyte : ∀ i (hi : i < 4), s.buf[i] = (#v[b0, b1, b2, b3, b4] : FrameBuf)[i] := fun i hi => by
    rw [← bufWriteBit_last_getElem s.buf b i hi]
    simp only [hframe]
  have hb0 : s.buf[0] = b0 := hbyte 0 (by omega)
  have hb1 : s.buf[1] = b1 := hbyte 1 (by omega)
  have hb2 : s.buf[2] = b2 := hbyte 2 (by omega)
  have hb3 : s.buf[3] = b3 := hbyte 3 (by omega)
  have hsum := checksumOk_iff s.buf
  have hraw := rawValue_eq s.buf
  have hhum := humidityOf_rawValue s.buf
  rw [hb0, hb1, hb2, hb3] at hsum
  rw [hb1, hb2] at hraw hhum
  obtain ⟨harith, hinputs⟩ := exec_keeps_stepInputs h
  have hbuf : t.buf = #v[b0, b1, b2, b3, b4] := by
    rw [exec_store_buf h, if_pos (by omega), hc, hframe]
  have hcursor : t.cursor = 40#6 := BitVec.eq_of_toNat_eq (by rw [exec_store_cursor h, hc]; rfl)
  refine ⟨hbuf, hcursor, exec_store_response h, harith, hinputs, fun hbad => ?bad, fun hok => ?ok⟩
  case bad =>
    rw [exec_store_of_checksum_bad b hc (Bool.eq_false_iff.2 (mt hsum.1 hbad))] at h
    cases h
    exact ⟨rfl, rfl, rfl, rfl, rfl, rfl, rfl⟩
  case ok =>
    rw [exec_store_of_checksum_ok b hc (hsum.2 hok), hb0] at h
    cases h
    obtain ⟨-, -, hflag, -⟩ := dispatchTag_frame b0 (rawValue s.buf)
      (((s.writeBit 39 b).setCursor 40#6).setFrameValid true)
    have hreadings := dispatchTag_readings b0 (rawValue s.buf)
      (((s.writeBit 39 b).setCursor 40#6).setFrameValid true)
    rw [hhum, hraw] at hreadings
    rw [hraw] at hflag ⊢
    exact ⟨hflag, hreadings⟩

/-! ### A whole frame -/

theorem frameDecoded_of_sameOutsideFrame {s u t : State} {b0 b1 b2 b3 b4 : Byte} (hsu : sameOutsideFrame s u)
    (h : u.frameDecoded t b0 b1 b2 b3 b4) : s.frameDecoded t b0 b1 b2 b3 b4 := by
  obtain ⟨-, ⟨hv, hq, tv, tr, cv, cr⟩, harith, hinputs⟩ := hsu
  unfold State.frameDecoded State.sameReadings at h ⊢
  rwa [hv, hq, tv, tr, cv, cr, ← harith, ← hinputs]

/-- SENDFRAME is thirty-nine STOREs and one more, of the bits of its bytes by position. -/
theorem sendFrame_eq_stores (b0 b1 b2 b3 b4 : Byte) :
    sendFrame b0 b1 b2 b3 b4 = ((List.range 39).map (bufBit #v[b0, b1, b2, b3, b4])).map .store ++
      [.store (bufBit #v[b0, b1, b2, b3, b4] 39)] := rfl

/-- After the first thirty-nine bits of a frame the fortieth makes the buffer that frame, whatever it held. -/
theorem issue_allButLast (frame : FrameBuf) {s : State} (hc : s.cursor = 0#6) :
    ∃ u, issue (((List.range 39).map (bufBit frame)).map .store) s = .next u ∧ u.cursor.toNat = 39 ∧
      sameOutsideFrame s u ∧ bufWriteBit u.buf 39 (bufBit frame 39) = frame := by
  have hc0 : s.cursor.toNat = 0 := by rw [hc]; rfl
  have hlen : ((List.range 39).map (bufBit frame)).length = 39 := by rw [List.length_map, List.length_range]
  obtain ⟨u, hu, hcu, hsu, -, hbits⟩ := issue_stores_accumulate (bits := (List.range 39).map (bufBit frame)) (s := s)
    (by omega)
  rw [hc0, hlen] at hcu
  refine ⟨u, hu, hcu, hsu, buf_ext fun k hk => ?_⟩
  rw [bufBit_bufWriteBit _ _ _ _ (by omega) hk]
  by_cases h39 : k = 39
  · rw [if_pos h39, h39]
  · have hbit : ((List.range 39).map (bufBit frame))[k]? = some (bufBit frame k) := by
      rw [List.getElem?_map, List.getElem?_range (by omega)]
      rfl
    have hstored := hbits k _ hbit
    rw [hc0, Nat.zero_add] at hstored
    rw [if_neg h39, hstored]

/-- SENDFRAME from cursor 0 completes and is decoded. -/
theorem issue_sendFrame {s : State} (hc : s.cursor = 0#6) (b0 b1 b2 b3 b4 : Byte) :
    ∃ t, issue (sendFrame b0 b1 b2 b3 b4) s = .next t ∧ s.frameDecoded t b0 b1 b2 b3 b4 := by
  obtain ⟨u, hu, hcu, hsu, hframe⟩ := issue_allButLast #v[b0, b1, b2, b3, b4] hc
  have hlast := exec_of_legal (i := .store (bufBit #v[b0, b1, b2, b3, b4] 39)) (show u.cursor.toNat ≤ 40 by omega)
  refine ⟨_, ?_, frameDecoded_of_sameOutsideFrame hsu (exec_store_decodes hlast hcu hframe)⟩
  rw [sendFrame_eq_stores, issue_append hu, issue_cons_next hlast, issue_nil]

/-- Settles O53: FRESET and the construction reset both leave cursor 0, and FRESET leaves everything else outside the
frame. -/
theorem frameAfterFresetIsDecoded : Obligations.FrameAfterFresetIsDecoded := by
  unfold Obligations.FrameAfterFresetIsDecoded
  intro s b0 b1 b2 b3 b4
  refine ⟨fun hc => issue_sendFrame hc b0 b1 b2 b3 b4, fun hs => ?_, issue_sendFrame rfl b0 b1 b2 b3 b4⟩
  have hreset := exec_freset_of_legal hs
  obtain ⟨t, ht, hdecoded⟩ := issue_sendFrame
    (s := (s.clearBuf.setCursor 0#6).respond 0x00000000#32 false) rfl b0 b1 b2 b3 b4
  exact ⟨t, (issue_cons_next hreset).trans ht, frameDecoded_of_sameOutsideFrame (sameOutsideFrame.refl s) hdecoded⟩

end Sys2Proof.Machine
end

section
/-! The binary32 word and its fields (00_scope.md section 5): `bits32` and `ofBits32` invert each other. -/

namespace Sys2Proof.Machine

theorem bits32_sign (x : Binary32) : (bits32 x).getLsbD 31 = x.sign := by
  rw [bits32_getLsbD, if_neg (by omega), if_neg (by omega), decide_eq_true rfl, Bool.true_and]

theorem bits32_exponent (x : Binary32) : (bits32 x).extractLsb' 23 8 = x.exponent := by
  apply BitVec.eq_of_getLsbD_eq
  intro j hj
  rw [BitVec.getLsbD_extractLsb', bits32_getLsbD, if_neg (by omega), if_pos (by omega), Nat.add_sub_cancel_left,
    decide_eq_true hj, Bool.true_and]

theorem bits32_fraction (x : Binary32) : (bits32 x).extractLsb' 0 23 = x.fraction := by
  apply BitVec.eq_of_getLsbD_eq
  intro j hj
  rw [BitVec.getLsbD_extractLsb', Nat.zero_add, bits32_getLsbD, if_pos hj, decide_eq_true hj, Bool.true_and]

@[simp] theorem ofBits32_bits32 (x : Binary32) : ofBits32 (bits32 x) = x := by
  rw [ofBits32, bits32_sign, bits32_exponent, bits32_fraction]

@[simp] theorem bits32_ofBits32 (w : Word) : bits32 (ofBits32 w) = w := by
  apply BitVec.eq_of_getLsbD_eq
  intro i hi
  rw [bits32_getLsbD]
  simp only [ofBits32, BitVec.getLsbD_extractLsb']
  split
  · next hfraction => simp [hfraction]
  · split
    · next hexponent =>
      have hj : i - 23 < 8 := by omega
      have hpos : 23 + (i - 23) = i := by omega
      simp [hj, hpos]
    · have htop : i = 31 := by omega
      simp [htop]

/-- Settles O30: the three fields of the word, and the word of the fields. -/
theorem binary32WordLayout : Obligations.Binary32WordLayout := by
  unfold Obligations.Binary32WordLayout
  exact ⟨fun x => ⟨bits32_sign x, bits32_exponent x, bits32_fraction x⟩, bits32_ofBits32⟩

end Sys2Proof.Machine
end

section
/-! `f32` rounds to the nearest binary32, ties to even (00_scope.md section 5). The magnitude of a fraction is scaled so
that binary32's spacing in its binade is 1; there the significand is the nearest integer, and every binary32 value is
either an integer too or, in a lower binade, further away than the least integer of this one. -/

namespace Sys2Proof.Machine

/-! ### The scaled magnitude and its rounding -/

/-- The binade of a magnitude, that of `2 ^ -126` for the subnormal ones. -/
def binade (n d : Nat) : Int := max (floorLog2 n d) (-126)

/-- The distance of neighbouring binary32 values in that binade. -/
def spacing (n d : Nat) : ℚ := 2 ^ (binade n d - 23)

/-- The magnitude in units of that spacing. -/
def scaled (n d : Nat) : ℚ := (n : ℚ) / d * 2 ^ (23 - binade n d)

/-- The significand that `magnitude32` rounds to. -/
def rounded (n d : Nat) : Nat :=
  roundHalfEven (n * 2 ^ (23 - binade n d).toNat) (d * 2 ^ (-(23 - binade n d)).toNat)

theorem magnitude32_eq (n d : Nat) :
    magnitude32 n d = min ((binade n d + 126).toNat * 2 ^ 23 + rounded n d) (255 * 2 ^ 23) := rfl

theorem le_binade (n d : Nat) : -126 ≤ binade n d := le_max_right _ _

theorem spacing_pos (n d : Nat) : 0 < spacing n d := by
  unfold spacing
  positivity

theorem scaled_mul_spacing (n d : Nat) : scaled n d * spacing n d = (n : ℚ) / d := by
  rw [scaled, spacing, mul_assoc, ← zpow_add₀ two_ne_zero, show 23 - binade n d + (binade n d - 23) = 0 by ring, zpow_zero,
    mul_one]

theorem scaled_lt {n d : Nat} (hn : 0 < n) (hd : 0 < d) : scaled n d < 2 ^ 24 := by
  have hlog : floorLog2 n d ≤ binade n d := le_max_left _ _
  calc scaled n d < (2 : ℚ) ^ (floorLog2 n d + 1) * 2 ^ (23 - binade n d) := by
        unfold scaled
        gcongr
        exact (floorLog2_spec n d hn hd).2
    _ = (2 : ℚ) ^ (floorLog2 n d + 1 + (23 - binade n d)) := (zpow_add₀ two_ne_zero _ _).symm
    _ ≤ (2 : ℚ) ^ (24 : Int) := zpow_le_zpow_right₀ one_le_two (by omega)
    _ = 2 ^ 24 := by norm_num

theorem le_scaled {n d : Nat} (hn : 0 < n) (hd : 0 < d) (h : -126 < binade n d) : 2 ^ 23 ≤ scaled n d := by
  have hlog : binade n d = floorLog2 n d := by unfold binade at h ⊢; omega
  calc (2 : ℚ) ^ 23 = (2 : ℚ) ^ (floorLog2 n d + (23 - floorLog2 n d)) := by
        rw [add_sub_cancel]
        norm_num
    _ = (2 : ℚ) ^ floorLog2 n d * 2 ^ (23 - floorLog2 n d) := zpow_add₀ two_ne_zero _ _
    _ ≤ scaled n d := by
        rw [scaled, hlog]
        gcongr
        exact (floorLog2_spec n d hn hd).1

/-- `roundHalfEven` in rational terms. -/
theorem roundHalfEven_near (n d : Nat) (hd : 0 < d) :
    |(roundHalfEven n d : ℚ) - n / d| ≤ 1 / 2 ∧
      (|(roundHalfEven n d : ℚ) - n / d| = 1 / 2 → roundHalfEven n d % 2 = 0) := by
  obtain ⟨above, below, tie⟩ := roundHalfEven_spec n d hd
  have hd' : (0 : ℚ) < d := by exact_mod_cast hd
  have habove : (2 : ℚ) * (roundHalfEven n d * d) ≤ 2 * n + d := by exact_mod_cast above
  have hbelow : (2 : ℚ) * n ≤ 2 * (roundHalfEven n d * d) + d := by exact_mod_cast below
  have hn : (n : ℚ) = n / d * d := (div_mul_cancel₀ _ hd'.ne').symm
  generalize (n : ℚ) / d = z at *
  refine ⟨abs_le.2 ⟨by nlinarith, by nlinarith⟩, fun h => tie ?_⟩
  rcases eq_or_eq_neg_of_abs_eq h with h | h
  · left
    have : (2 : ℚ) * (roundHalfEven n d * d) = 2 * n + d := by
      rw [hn, sub_eq_iff_eq_add.1 h]
      ring
    exact_mod_cast this
  · right
    have : (2 : ℚ) * n = 2 * (roundHalfEven n d * d) + d := by
      rw [hn, sub_eq_iff_eq_add.1 h]
      ring
    exact_mod_cast this

theorem rounded_near (n d : Nat) (hd : 0 < d) :
    |(rounded n d : ℚ) - scaled n d| ≤ 1 / 2 ∧ (|(rounded n d : ℚ) - scaled n d| = 1 / 2 → rounded n d % 2 = 0) := by
  rw [scaled, ← scaled_toRat n d _ hd]
  exact roundHalfEven_near _ _ (by positivity)

/-- An integer bounds the rounded significand if it bounds the scaled magnitude by less than one half more. -/
theorem rounded_le_of_scaled_lt {n d : Nat} (hd : 0 < d) {k : Nat} (h : scaled n d < k + 1 / 2) : rounded n d ≤ k := by
  obtain ⟨-, hle⟩ := abs_le.1 (rounded_near n d hd).1
  have hlt : (rounded n d : ℚ) < (k + 1 : Nat) := by push_cast; linarith
  exact Nat.le_of_lt_succ (by exact_mod_cast hlt)

theorem le_rounded_of_le_scaled {n d : Nat} (hd : 0 < d) {k : Nat} (h : k ≤ scaled n d) : k ≤ rounded n d := by
  obtain ⟨hle, -⟩ := abs_le.1 (rounded_near n d hd).1
  have hlt : (k : ℚ) < (rounded n d + 1 : Nat) := by push_cast; linarith
  exact Nat.le_of_lt_succ (by exact_mod_cast hlt)

theorem rounded_le {n d : Nat} (hn : 0 < n) (hd : 0 < d) : rounded n d ≤ 2 ^ 24 := by
  have hz := scaled_lt hn hd
  exact rounded_le_of_scaled_lt hd (by push_cast; linarith)

/-- Below the overflow bound the magnitude is that of a finite datum: in the greatest binade the significand does not
round up to `2 ^ 24`. -/
theorem magnitude32_lt {n d : Nat} (hn : 0 < n) (hd : 0 < d) (hb : (n : ℚ) / d < 2 ^ 128 - 2 ^ 103) :
    (binade n d + 126).toNat * 2 ^ 23 + rounded n d < 255 * 2 ^ 23 := by
  have hm := rounded_le hn hd
  have hlog : floorLog2 n d < 128 := by
    have hpow : (2 : ℚ) ^ floorLog2 n d < 2 ^ (128 : Int) :=
      calc (2 : ℚ) ^ floorLog2 n d ≤ n / d := (floorLog2_spec n d hn hd).1
        _ < 2 ^ 128 - 2 ^ 103 := hb
        _ < 2 ^ (128 : Int) := by norm_num
    exact (zpow_lt_zpow_iff_right₀ one_lt_two).1 hpow
  have he : binade n d ≤ 127 := by unfold binade; omega
  rcases he.lt_or_eq with he | he
  · omega
  · have hz : scaled n d < ((2 ^ 24 - 1 : Nat) : ℚ) + 1 / 2 :=
      calc scaled n d = (n : ℚ) / d * 2 ^ (-104 : Int) := by rw [scaled, he]; norm_num
        _ < (2 ^ 128 - 2 ^ 103) * 2 ^ (-104 : Int) := by gcongr
        _ = ((2 ^ 24 - 1 : Nat) : ℚ) + 1 / 2 := by norm_num
    have hm' := rounded_le_of_scaled_lt hd hz
    omega

/-! ### The result of `f32` -/

theorem toRat_eq_sign_mul (q : Frac) : q.toRat = (q.num.sign : ℚ) * ((q.num.natAbs : ℚ) / q.den) := by
  have hnum : (q.num : ℚ) = (q.num.sign : ℚ) * q.num.natAbs := by
    rw [← Int.cast_natCast (R := ℚ) q.num.natAbs, ← Int.cast_mul, Int.sign_mul_natAbs]
  rw [Frac.toRat, hnum, mul_div_assoc]

theorem sign_mul_self {q : Frac} (h0 : q.num ≠ 0) : (q.num.sign : ℚ) * q.num.sign = 1 := by
  rcases lt_or_gt_of_ne h0 with h | h
  · rw [Int.sign_eq_neg_one_of_neg h]; norm_num
  · rw [Int.sign_eq_one_of_pos h]; norm_num

theorem abs_sign {q : Frac} (h0 : q.num ≠ 0) : |(q.num.sign : ℚ)| = 1 := by
  rcases lt_or_gt_of_ne h0 with h | h
  · rw [Int.sign_eq_neg_one_of_neg h]; norm_num
  · rw [Int.sign_eq_one_of_pos h]; norm_num

theorem abs_toRat {q : Frac} (h0 : q.num ≠ 0) : |q.toRat| = (q.num.natAbs : ℚ) / q.den := by
  rw [toRat_eq_sign_mul, abs_mul, abs_sign h0, one_mul, abs_of_nonneg (by positivity)]

section
variable {q : Frac} (h0 : q.num ≠ 0) (hd : 0 < q.den) (hb : |q.toRat| < 2 ^ 128 - 2 ^ 103)
include h0 hd hb

/-- `f32` of a fraction in range: sign, and the magnitude without the cap of the infinity. -/
theorem f32_eq : f32 q = ⟨decide (q.num < 0),
    BitVec.ofNat 8 (((binade q.num.natAbs q.den + 126).toNat * 2 ^ 23 + rounded q.num.natAbs q.den) / 2 ^ 23),
    BitVec.ofNat 23 (((binade q.num.natAbs q.den + 126).toNat * 2 ^ 23 + rounded q.num.natAbs q.den) % 2 ^ 23)⟩ := by
  rw [abs_toRat h0] at hb
  rw [f32_of_ne_zero q h0, magnitude32_eq, min_eq_left (magnitude32_lt (Int.natAbs_pos.2 h0) hd hb).le]

theorem isFinite32_f32_of_ne_zero : isFinite32 (f32 q) = true := by
  rw [f32_eq h0 hd hb]
  rw [abs_toRat h0] at hb
  have hlt := magnitude32_lt (Int.natAbs_pos.2 h0) hd hb
  rw [isFinite32, bne_iff_ne, Ne, ← BitVec.toNat_inj, BitVec.toNat_ofNat, BitVec.toNat_ofNat]
  omega

theorem f32_fraction_even_iff : (f32 q).fraction.getLsbD 0 = false ↔ rounded q.num.natAbs q.den % 2 = 0 := by
  rw [f32_eq h0 hd hb, BitVec.getLsbD_ofNat]
  simp

/-- The value of `f32` is the rounded significand in units of the binade's spacing. -/
theorem exact32_f32 : (exact32 (f32 q)).toRat =
    q.num.sign * rounded q.num.natAbs q.den * spacing q.num.natAbs q.den := by
  have hn := Int.natAbs_pos.2 h0
  have hmin := le_binade q.num.natAbs q.den
  have hm := rounded_le hn hd
  have hnormal : (binade q.num.natAbs q.den + 126).toNat = 0 ∨ 2 ^ 23 ≤ rounded q.num.natAbs q.den := by
    by_cases hsub : binade q.num.natAbs q.den = -126
    · left; omega
    · right
      exact le_rounded_of_le_scaled hd (by push_cast; exact le_scaled hn hd (by omega))
  have hsign : (if decide (q.num < 0) = true then -1 else 1 : ℚ) = q.num.sign := by
    rcases lt_or_gt_of_ne h0 with h | h
    · rw [Int.sign_eq_neg_one_of_neg h, if_pos (decide_eq_true h)]; norm_num
    · rw [Int.sign_eq_one_of_pos h, if_neg (by simpa using h.le)]; norm_num
  have hexp : ((binade q.num.natAbs q.den + 126).toNat : Int) - 149 = binade q.num.natAbs q.den - 23 := by omega
  rw [f32_eq h0 hd hb]
  rw [abs_toRat h0] at hb
  rw [exact32_of_magnitude _ _ _ hnormal hm (magnitude32_lt hn hd hb), hsign, hexp, spacing]

end

/-! ### Other binary32 data -/

theorem significand32_lt (x : Binary32) : significand32 x < 2 ^ 24 := by
  have hfraction := x.fraction.isLt
  unfold significand32
  split <;> omega

/-- A binary32 value is a whole multiple of the spacing of a binade, or it is of a lower binade. -/
theorem exact32_cases (y : Binary32) (n d : Nat) :
    (∃ j : Int, (exact32 y).toRat = j * spacing n d) ∨
    (|(exact32 y).toRat| < 2 ^ 23 * spacing n d ∧ -126 < binade n d) := by
  unfold spacing
  generalize binade n d = e
  rw [exact32_toRat]
  set E : Nat := max y.exponent.toNat 1 with hE
  have hE1 : 1 ≤ E := le_max_right _ _
  by_cases hcoarse : e - 23 ≤ (E : Int) - 150
  · left
    obtain ⟨p, hp⟩ := Int.le.dest hcoarse
    refine ⟨(if y.sign then -1 else 1) * significand32 y * 2 ^ p, ?_⟩
    rw [← hp, zpow_add₀ two_ne_zero, zpow_natCast]
    push_cast
    split <;> ring
  · right
    refine ⟨?_, by omega⟩
    have hsig : (significand32 y : ℚ) < 2 ^ 24 := by exact_mod_cast significand32_lt y
    have hsign : |(if y.sign then -1 else 1 : ℚ)| = 1 := by split <;> norm_num
    rw [abs_mul, abs_mul, hsign, one_mul, abs_of_nonneg (by positivity), abs_of_nonneg (by positivity)]
    calc (significand32 y : ℚ) * (2 : ℚ) ^ ((E : Int) - 150) < 2 ^ 24 * (2 : ℚ) ^ ((E : Int) - 150) := by gcongr
      _ ≤ 2 ^ 24 * (2 : ℚ) ^ (e - 24) :=
        mul_le_mul_of_nonneg_left (zpow_le_zpow_right₀ one_le_two (by omega)) (by positivity)
      _ = 2 ^ 23 * (2 : ℚ) ^ (e - 23) := by
        rw [show e - 23 = 1 + (e - 24) by ring, zpow_add₀ two_ne_zero]
        ring

/-! ### The nearest integer -/

/-- No integer is nearer than one within one half, and another integer is as near only if both are one half away. -/
theorem nearest_integer {m j : Int} {z : ℚ} (hm : |(m : ℚ) - z| ≤ 1 / 2) :
    |(m : ℚ) - z| ≤ |(j : ℚ) - z| ∧ (j ≠ m → |(m : ℚ) - z| = |(j : ℚ) - z| → |(m : ℚ) - z| = 1 / 2) := by
  by_cases hj : j = m
  · rw [hj]
    exact ⟨le_rfl, fun h => absurd rfl h⟩
  · have hone : (1 : ℚ) ≤ |(j : ℚ) - m| := by exact_mod_cast Int.one_le_abs (sub_ne_zero.2 hj)
    have htri : |(j : ℚ) - m| ≤ |(j : ℚ) - z| + |(m : ℚ) - z| := by
      rw [abs_sub_comm (m : ℚ) z]
      exact abs_sub_le _ _ _
    exact ⟨by linarith, fun _ h => by linarith⟩

/-- What lies below an integer `k` that is no greater than `z` is further from `z` than the nearest integer. -/
theorem nearest_integer_lt {m k : Int} {z r : ℚ} (hm : |(m : ℚ) - z| ≤ 1 / 2) (hk : k ≤ z) (hr : r < k) :
    |(m : ℚ) - z| < |r - z| :=
  calc |(m : ℚ) - z| ≤ |(k : ℚ) - z| := (nearest_integer hm).1
    _ = z - k := by rw [abs_sub_comm, abs_of_nonneg (by linarith)]
    _ < z - r := by linarith
    _ = |r - z| := by rw [abs_sub_comm, abs_of_nonneg (by linarith)]

/-! ### The statement -/

section
variable {q : Frac} (h0 : q.num ≠ 0)
include h0

/-- The distance of a value to a fraction, in units of the spacing of the fraction's binade. -/
theorem abs_sub_toRat (r : ℚ) : |r * spacing q.num.natAbs q.den - q.toRat| =
    |q.num.sign * r - scaled q.num.natAbs q.den| * spacing q.num.natAbs q.den := by
  have hspacing := spacing_pos q.num.natAbs q.den
  rw [toRat_eq_sign_mul, ← scaled_mul_spacing]
  generalize spacing q.num.natAbs q.den = u at *
  generalize scaled q.num.natAbs q.den = z
  calc |r * u - q.num.sign * (z * u)| = |q.num.sign * ((q.num.sign * r - z) * u)| := by
        congr 1
        linear_combination (-(r * u)) * sign_mul_self h0
    _ = |q.num.sign * r - z| * u := by rw [abs_mul, abs_sign h0, one_mul, abs_mul, abs_of_pos hspacing]

variable (hd : 0 < q.den) (hb : |q.toRat| < 2 ^ 128 - 2 ^ 103)
include hd hb

theorem f32_distance : |(exact32 (f32 q)).toRat - q.toRat| =
    |(rounded q.num.natAbs q.den : ℚ) - scaled q.num.natAbs q.den| * spacing q.num.natAbs q.den := by
  rw [exact32_f32 h0 hd hb, abs_sub_toRat h0, ← mul_assoc, sign_mul_self h0, one_mul]

/-- Among the multiples of the spacing none is nearer, and another one is as near only from half way between them. -/
theorem f32_nearest_multiple (j : Int) :
    |(exact32 (f32 q)).toRat - q.toRat| ≤ |j * spacing q.num.natAbs q.den - q.toRat| ∧
    (j * spacing q.num.natAbs q.den ≠ (exact32 (f32 q)).toRat →
      |(exact32 (f32 q)).toRat - q.toRat| = |j * spacing q.num.natAbs q.den - q.toRat| →
      |(rounded q.num.natAbs q.den : ℚ) - scaled q.num.natAbs q.den| = 1 / 2) := by
  have hspacing := spacing_pos q.num.natAbs q.den
  obtain ⟨hle, htie⟩ := nearest_integer (m := rounded q.num.natAbs q.den) (j := q.num.sign * j)
    (rounded_near q.num.natAbs q.den hd).1
  push_cast at hle htie
  rw [f32_distance h0 hd hb, abs_sub_toRat h0 j]
  refine ⟨mul_le_mul_of_nonneg_right hle hspacing.le, fun hne heq => htie ?_ (mul_right_cancel₀ hspacing.ne' heq)⟩
  intro hsame
  have hcast : (q.num.sign : ℚ) * j = rounded q.num.natAbs q.den := by exact_mod_cast hsame
  rw [exact32_f32 h0 hd hb, ← hcast, ← mul_assoc, sign_mul_self h0, one_mul] at hne
  exact hne rfl

/-- A value below the least integer significand of a normal binade is further away. -/
theorem f32_nearer_than_lower {x : ℚ} (hx : |x| < 2 ^ 23 * spacing q.num.natAbs q.den)
    (hnormal : -126 < binade q.num.natAbs q.den) :
    |(exact32 (f32 q)).toRat - q.toRat| < |x - q.toRat| := by
  have hspacing := spacing_pos q.num.natAbs q.den
  obtain ⟨r, rfl⟩ : ∃ r, x = r * spacing q.num.natAbs q.den := ⟨_, (div_mul_cancel₀ x hspacing.ne').symm⟩
  rw [abs_mul, abs_of_pos hspacing] at hx
  have hlow : (q.num.sign : ℚ) * r < ((2 ^ 23 : Int) : ℚ) :=
    calc (q.num.sign : ℚ) * r ≤ |(q.num.sign : ℚ) * r| := le_abs_self _
      _ = |r| := by rw [abs_mul, abs_sign h0, one_mul]
      _ < ((2 ^ 23 : Int) : ℚ) := by exact_mod_cast lt_of_mul_lt_mul_right hx hspacing.le
  have hscaled : ((2 ^ 23 : Int) : ℚ) ≤ scaled q.num.natAbs q.den := by
    exact_mod_cast le_scaled (Int.natAbs_pos.2 h0) hd hnormal
  rw [f32_distance h0 hd hb, abs_sub_toRat h0 r]
  exact mul_lt_mul_of_pos_right
    (nearest_integer_lt (m := rounded q.num.natAbs q.den) (rounded_near _ _ hd).1 hscaled hlow) hspacing

/-- No binary32 is nearer than `f32`, and one of another value is as near only from half way between two. -/
theorem f32_nearest (y : Binary32) :
    |(exact32 (f32 q)).toRat - q.toRat| ≤ |(exact32 y).toRat - q.toRat| ∧
    ((exact32 y).toRat ≠ (exact32 (f32 q)).toRat →
      |(exact32 (f32 q)).toRat - q.toRat| = |(exact32 y).toRat - q.toRat| →
      |(rounded q.num.natAbs q.den : ℚ) - scaled q.num.natAbs q.den| = 1 / 2) := by
  rcases exact32_cases y q.num.natAbs q.den with ⟨j, hj⟩ | ⟨hlower, hnormal⟩
  · rw [hj]
    exact f32_nearest_multiple h0 hd hb j
  · have hlt := f32_nearer_than_lower h0 hd hb hlower hnormal
    exact ⟨hlt.le, fun _ heq => absurd heq hlt.ne⟩

end

/-- Settles O31: the nearest property, and a tie leaves an even significand; 0 is a binary32 itself. -/
theorem f32RoundsToNearestTiesToEven : Obligations.F32RoundsToNearestTiesToEven := by
  unfold Obligations.F32RoundsToNearestTiesToEven
  intro q hd hb
  by_cases h0 : q.num = 0
  · have hq : q.toRat = 0 := by rw [Frac.toRat, h0, Int.cast_zero, zero_div]
    have hz : (exact32 (⟨false, 0#8, 0#23⟩ : Binary32)).toRat = 0 := by
      rw [show exact32 ⟨false, 0#8, 0#23⟩ = ⟨0, 2 ^ 149⟩ by decide, Frac.toRat, Int.cast_zero, zero_div]
    rw [f32_of_zero q h0, hq, hz, sub_zero, abs_zero]
    exact ⟨rfl, fun y _ => ⟨abs_nonneg _, fun _ _ => rfl⟩⟩
  · refine ⟨isFinite32_f32_of_ne_zero h0 hd hb, fun y _ => ?_⟩
    obtain ⟨hnear, htie⟩ := f32_nearest h0 hd hb y
    exact ⟨hnear, fun hne heq =>
      (f32_fraction_even_iff h0 hd hb).2 ((rounded_near _ _ hd).2 (htie hne heq))⟩

end Sys2Proof.Machine
end

section
/-! What GETVALUE answers as a binary32 (42_readout.md R94, R99): the values of the readings are dyadic fractions with at
most 24 significant bits, so `f32` is exact on them, and a fraction that is not 0 never gives the word 0. -/

namespace Sys2Proof.Machine

/-! ### Exact results -/

theorem abs_toRat_lt {q : Frac} (hd : 0 < q.den) (hnum : q.num.natAbs < 2 ^ 127) :
    |q.toRat| < 2 ^ 128 - 2 ^ 103 := by
  have hden : (1 : ℚ) ≤ q.den := by exact_mod_cast hd
  have hnum' : |(q.num : ℚ)| < 2 ^ 127 := by
    rw [← Int.cast_abs, Int.abs_eq_natAbs]
    exact_mod_cast hnum
  calc |q.toRat| = |(q.num : ℚ)| / q.den := by rw [Frac.toRat, abs_div, Nat.abs_cast]
    _ ≤ |(q.num : ℚ)| := div_le_self (abs_nonneg _) hden
    _ < 2 ^ 127 := hnum'
    _ < 2 ^ 128 - 2 ^ 103 := by norm_num

theorem rounded_eq_of_scaled_eq {n d k : Nat} (hd : 0 < d) (h : scaled n d = k) : rounded n d = k :=
  le_antisymm (rounded_le_of_scaled_lt hd (by rw [h]; linarith)) (le_rounded_of_le_scaled hd h.ge)

/-- A dyadic magnitude with at most 24 significant bits is a whole number of spacings. -/
theorem scaled_dyadic {n j : Nat} (hn : 0 < n) (hn' : n < 2 ^ 24) (hj : j ≤ 149) : ∃ k : Nat, scaled n (2 ^ j) = k := by
  have hlog : floorLog2 n (2 ^ j) + j < 24 := by
    have hpow : (2 : ℚ) ^ (floorLog2 n (2 ^ j) + j) < 2 ^ (24 : Int) := by
      have hbelow := (floorLog2_spec n (2 ^ j) hn (by positivity)).1
      rw [Nat.cast_pow, Nat.cast_ofNat, le_div_iff₀ (by positivity)] at hbelow
      rw [zpow_add₀ two_ne_zero, zpow_natCast]
      exact hbelow.trans_lt (by exact_mod_cast hn')
    exact (zpow_lt_zpow_iff_right₀ one_lt_two).1 hpow
  obtain ⟨p, hp⟩ : ∃ p : Nat, 23 - binade n (2 ^ j) = j + p :=
    ⟨(23 - binade n (2 ^ j) - j).toNat, by unfold binade; omega⟩
  refine ⟨n * 2 ^ p, ?_⟩
  rw [scaled, hp, zpow_add₀ two_ne_zero, zpow_natCast, zpow_natCast]
  push_cast
  field_simp

/-- `f32` is exact on a dyadic fraction with at most 24 significant bits. -/
theorem exact32_f32_of_dyadic {q : Frac} {j : Nat} (hden : q.den = 2 ^ j) (hj : j ≤ 149)
    (hnum : q.num.natAbs < 2 ^ 24) : (exact32 (f32 q)).toRat = q.toRat := by
  have hd : 0 < q.den := by rw [hden]; positivity
  by_cases h0 : q.num = 0
  · rw [f32_of_zero q h0, show exact32 ⟨false, 0#8, 0#23⟩ = ⟨0, 2 ^ 149⟩ by decide]
    rw [Frac.toRat, Frac.toRat, h0, Int.cast_zero, zero_div, zero_div]
  · obtain ⟨k, hk⟩ := scaled_dyadic (Int.natAbs_pos.2 h0) hnum hj
    rw [← hden] at hk
    rw [exact32_f32 h0 hd (abs_toRat_lt hd (by omega)), rounded_eq_of_scaled_eq hd hk, ← hk, mul_assoc,
      scaled_mul_spacing, toRat_eq_sign_mul]

theorem kelvinFrac_toRat (raw : BitVec 16) : (kelvinFrac raw).toRat = (raw.toNat : ℚ) / 16 := by
  rw [Frac.toRat, kelvinFrac, Int.cast_natCast, Nat.cast_ofNat]

theorem exact32_f32_intFrac {n : Nat} (hn : n < 2 ^ 24) : (exact32 (f32 (intFrac n))).toRat = n := by
  rw [exact32_f32_of_dyadic (j := 0) rfl (by omega) (show (intFrac n).num.natAbs < 2 ^ 24 from hn)]
  rw [Frac.toRat, intFrac, Int.cast_natCast, Nat.cast_one, div_one]

theorem exact32_f32_kelvinFrac (raw : BitVec 16) : (exact32 (f32 (kelvinFrac raw))).toRat = (raw.toNat : ℚ) / 16 := by
  have hraw := raw.isLt
  have hnum : (kelvinFrac raw).num.natAbs < 2 ^ 24 := show raw.toNat < 2 ^ 24 by omega
  rw [exact32_f32_of_dyadic (j := 4) rfl (by omega) hnum, kelvinFrac_toRat]

/-- Settles O34: C273 by evaluation. -/
theorem kelvinConstantC273 : Obligations.KelvinConstantC273 := by
  unfold Obligations.KelvinConstantC273
  refine ⟨by decide, ?_⟩
  rw [c273_eq, Frac.toRat, Int.cast_ofNat, Nat.cast_ofNat]

/-! ### The word 0 -/

/-- Numerator and denominator lie inside the range of the normal binary32 data. -/
def inNormalRange (q : Frac) : Prop := 0 < q.den ∧ q.num.natAbs < 2 ^ 127 ∧ q.den ≤ 2 ^ 126

theorem inNormalRange_intFrac {n : Nat} (hn : n < 2 ^ 127) : inNormalRange (intFrac n) :=
  ⟨Nat.one_pos, hn, Nat.one_le_two_pow⟩

theorem inNormalRange_kelvinFrac (raw : BitVec 16) : inNormalRange (kelvinFrac raw) :=
  ⟨(by decide : 0 < 16), show raw.toNat < 2 ^ 127 by have := raw.isLt; omega, (by decide : 16 ≤ 2 ^ 126)⟩

/-- The word of a fraction in the normal range is 0 for the fraction 0 alone. -/
theorem bits32_f32_eq_zero_iff {q : Frac} (hq : inNormalRange q) : bits32 (f32 q) = 0x00000000#32 ↔ q.num = 0 := by
  obtain ⟨hd, hnum, hden⟩ := hq
  constructor
  · intro hw
    by_contra h0
    exact bits32_ne_zero_of_exponent (f32_exponent_ne_zero h0 hd hnum hden) hw
  · intro h0
    rw [f32_of_zero q h0]
    rfl

theorem bits32_f32_intFrac_eq_zero_iff {w : Nat} {x : BitVec w} (hx : x.toNat < 2 ^ 127) :
    bits32 (f32 (intFrac x.toNat)) = 0x00000000#32 ↔ x = 0#w := by
  rw [bits32_f32_eq_zero_iff (inNormalRange_intFrac hx), intFrac, Int.natCast_eq_zero, ← BitVec.toNat_inj,
    BitVec.toNat_zero]

theorem bits32_f32_kelvinFrac_eq_zero_iff (raw : BitVec 16) :
    bits32 (f32 (kelvinFrac raw)) = 0x00000000#32 ↔ raw = 0#16 := by
  rw [bits32_f32_eq_zero_iff (inNormalRange_kelvinFrac raw), kelvinFrac, Int.natCast_eq_zero, ← BitVec.toNat_inj,
    BitVec.toNat_zero]

/-- A fraction in the normal range gives a finite binary32, with exponent field 0 for +0.0 alone. -/
theorem f32_ordinary {q : Frac} (hq : inNormalRange q) :
    isFinite32 (f32 q) = true ∧ ((f32 q).exponent = 0#8 → bits32 (f32 q) = 0x00000000#32) := by
  have hzero := bits32_f32_eq_zero_iff hq
  obtain ⟨hd, hnum, hden⟩ := hq
  refine ⟨(f32RoundsToNearestTiesToEven q hd (abs_toRat_lt hd hnum)).1, fun hexp => hzero.2 ?_⟩
  by_contra h0
  exact f32_exponent_ne_zero h0 hd hnum hden hexp

/-! ### The words answered -/

theorem rspData_of_value {i : Instr} {s t : State} {v : Bool} {x : Binary32}
    (he : commandEffect i s = s.respond (valueWord v x) false) (h : exec i s = .next t) :
    t.rspData = valueWord v x := by
  rw [(exec_next h).2, he]
  rfl

theorem rspData_of_valid {i : Instr} {s t : State} {v : Bool} {x : Binary32}
    (he : commandEffect i s = s.respond (valueWord v x) false) (h : exec i s = .next t) (hv : v = true) :
    t.rspData = bits32 x := by
  rw [rspData_of_value he h, valueWord_of_valid hv]

/-- GETREADING of a valid reading shows the valid bit in bit 16. -/
theorem rspData_ne_zero_of_valid_reading {i : Instr} {s t : State} {v : Bool} {x : BitVec 16}
    (he : commandEffect i s = s.respond (readingWord v x) false) (h : exec i s = .next t) (hv : v = true) :
    t.rspData ≠ 0x00000000#32 := by
  have hx := x.isLt
  rw [(exec_next h).2, he, State.respond_rspData, readingWord_eq, hv, Bool.toNat_true, Ne, ← BitVec.toNat_inj,
    BitVec.toNat_ofNat, BitVec.toNat_zero]
  omega

/-- Settles O32: the word answered has the fields of the result, which is exact. -/
theorem getvalueIsExact : Obligations.GetvalueIsExact := by
  unfold Obligations.GetvalueIsExact
  intro s t
  have hhum := s.humQ.isLt
  have hco2 := s.co2Raw.isLt
  refine ⟨fun h hv => ?hum, fun h hv => ?tk, fun h hv => ?co2⟩
  case hum => rw [rspData_of_valid rfl h hv, ofBits32_bits32, exact32_f32_intFrac (by omega), humValue]
  case tk => rw [rspData_of_valid rfl h hv, ofBits32_bits32, exact32_f32_kelvinFrac, tmpValue]
  case co2 => rw [rspData_of_valid rfl h hv, ofBits32_bits32, exact32_f32_intFrac (by omega), co2Value]

/-- Settles O28: the word 0 is that of the fraction 0, Celsius results are normal, and GETREADING shows the valid bit. -/
theorem sentinelAmbiguity : Obligations.SentinelAmbiguity := by
  unfold Obligations.SentinelAmbiguity
  intro s t
  have hhum := s.humQ.isLt
  have hco2 := s.co2Raw.isLt
  refine ⟨fun h hv => ?hum, fun h hv => ?tk, fun h hv => ?tc, fun h hv => ?co2, fun h hv => ?rhum, fun h hv => ?rtmp,
    fun h hv => ?rco2⟩
  case hum => rw [rspData_of_valid rfl h hv, bits32_f32_intFrac_eq_zero_iff (by omega)]
  case tk => rw [rspData_of_valid rfl h hv, bits32_f32_kelvinFrac_eq_zero_iff]
  case tc =>
    rw [rspData_of_valid rfl h hv]
    exact bits32_ne_zero_of_exponent (celsius_exponent_ne_zero _ _)
  case co2 => rw [rspData_of_valid rfl h hv, bits32_f32_intFrac_eq_zero_iff (by omega)]
  case rhum => exact rspData_ne_zero_of_valid_reading rfl h hv
  case rtmp => exact rspData_ne_zero_of_valid_reading rfl h hv
  case rco2 => exact rspData_ne_zero_of_valid_reading rfl h hv

end Sys2Proof.Machine
end

section
/-! The Celsius value (42_readout.md R95): both modes over one denominator, where they agree, and where they differ. -/

namespace Sys2Proof.Machine

/-! ### The exact differences -/

theorem celsius_b32TwoStep_eq {raw : BitVec 16} {q : Frac} (hd : 0 < q.den)
    (h : q.toRat = (raw.toNat : ℚ) / 16 - 8950579 / 32768) : celsius .b32TwoStep raw = f32 q := by
  rw [celsius, c273_eq]
  refine f32_congr (by decide : 0 < 16 * 32768) hd ?_
  rw [fracSub_toRat _ _ (by decide : 0 < 16) (by decide), kelvinFrac_toRat, h, Frac.toRat]
  norm_num

theorem celsius_exactRne_eq {raw : BitVec 16} {q : Frac} (hd : 0 < q.den)
    (h : q.toRat = (raw.toNat : ℚ) / 16 - 27315 / 100) : celsius .exactRne raw = f32 q := by
  rw [celsius]
  refine f32_congr (by decide : 0 < 16 * 100) hd ?_
  rw [fracSub_toRat _ _ (by decide : 0 < 16) (by decide), kelvinFrac_toRat, h, Frac.toRat]
  norm_num

/-- Settles O35: each mode is `f32` of one exact difference, and `f32` sees only the value of a fraction. -/
theorem celsiusRoundsTheExactDifferenceOnce : Obligations.CelsiusRoundsTheExactDifferenceOnce := by
  unfold Obligations.CelsiusRoundsTheExactDifferenceOnce
  exact fun raw q hd => ⟨celsius_b32TwoStep_eq hd, celsius_exactRne_eq hd⟩

/-- Settles O37: the Celsius value is normal. -/
theorem celsiusIsNeverZero : Obligations.CelsiusIsNeverZero := by
  unfold Obligations.CelsiusIsNeverZero
  exact celsius_exponent_ne_zero

/-- The subtrahend of a mode in units of 1/163840, in which both offsets are whole. -/
def offsetUnits (m : CelsiusArith) : Int :=
  match m with
  | .b32TwoStep => 44752895
  | .exactRne => 44752896

/-- The exact difference of a mode in those units. -/
def celsiusFrac (m : CelsiusArith) (raw : BitVec 16) : Frac := ⟨10240 * raw.toNat - offsetUnits m, 163840⟩

theorem celsius_eq_f32 (m : CelsiusArith) (raw : BitVec 16) : celsius m raw = f32 (celsiusFrac m raw) := by
  cases m with
  | b32TwoStep =>
    refine celsius_b32TwoStep_eq (by decide : 0 < 163840) ?_
    rw [celsiusFrac, Frac.toRat, offsetUnits]
    push_cast
    ring
  | exactRne =>
    refine celsius_exactRne_eq (by decide : 0 < 163840) ?_
    rw [celsiusFrac, Frac.toRat, offsetUnits]
    push_cast
    ring

/-! ### No special results -/

theorem inNormalRange_celsiusFrac (m : CelsiusArith) (raw : BitVec 16) : inNormalRange (celsiusFrac m raw) := by
  have hraw := raw.isLt
  refine ⟨(by decide : 0 < 163840), ?_, (by decide : 163840 ≤ 2 ^ 126)⟩
  cases m with
  | b32TwoStep => simp only [celsiusFrac, offsetUnits]; omega
  | exactRne => simp only [celsiusFrac, offsetUnits]; omega

/-- A GETVALUE answers the sentinel or the word of its result. -/
theorem value_ordinary {i : Instr} {s t : State} {v : Bool} {q : Frac}
    (he : commandEffect i s = s.respond (valueWord v (f32 q)) false) (h : exec i s = .next t) (hq : inNormalRange q) :
    isFinite32 (ofBits32 t.rspData) = true ∧
      ((ofBits32 t.rspData).exponent = 0#8 → t.rspData = 0x00000000#32) := by
  rw [rspData_of_value he h]
  cases v with
  | false =>
    rw [valueWord_of_invalid rfl]
    exact ⟨by decide, fun _ => rfl⟩
  | true =>
    rw [valueWord_of_valid rfl, ofBits32_bits32]
    exact f32_ordinary hq

/-- Settles O33: each GETVALUE answers the sentinel or `f32` of a fraction in the normal range. -/
theorem getvalueIsNeverSpecial : Obligations.GetvalueIsNeverSpecial := by
  unfold Obligations.GetvalueIsNeverSpecial
  intro i s t hi h
  have hhum := s.humQ.isLt
  have hco2 := s.co2Raw.isLt
  rcases hi with rfl | rfl | rfl | rfl
  · exact value_ordinary rfl h (inNormalRange_intFrac (by omega))
  · exact value_ordinary rfl h (inNormalRange_kelvinFrac s.tmpRaw)
  · have he : commandEffect .getvalueTc s =
        s.respond (valueWord s.tmpValid (f32 (celsiusFrac s.celsiusArith s.tmpRaw))) false := by
      rw [← celsius_eq_f32, commandEffect]
    exact value_ordinary he h (inNormalRange_celsiusFrac s.celsiusArith s.tmpRaw)
  · exact value_ordinary rfl h (inNormalRange_intFrac (by omega))

/-! ### Outside the band the modes agree -/

theorem roundHalfEven_unique {n d m : Nat} (hd : 0 < d) (above : 2 * (m * d) ≤ 2 * n + d)
    (below : 2 * n ≤ 2 * (m * d) + d)
    (tie : 2 * (m * d) = 2 * n + d ∨ 2 * n = 2 * (m * d) + d → m % 2 = 0) : roundHalfEven n d = m := by
  obtain ⟨above', below', tie'⟩ := roundHalfEven_spec n d hd
  generalize roundHalfEven n d = r at *
  rcases lt_trichotomy r m with hlt | heq | hgt
  · obtain ⟨k, rfl⟩ := Nat.exists_eq_add_of_lt hlt
    have hmul : (r + k + 1) * d = r * d + k * d + d := by ring
    have hk : k * d = 0 := by omega
    have hk0 : k = 0 := (Nat.mul_eq_zero.1 hk).resolve_right hd.ne'
    omega
  · exact heq
  · obtain ⟨k, rfl⟩ := Nat.exists_eq_add_of_lt hgt
    have hmul : (m + k + 1) * d = m * d + k * d + d := by ring
    have hk : k * d = 0 := by omega
    have hk0 : k = 0 := (Nat.mul_eq_zero.1 hk).resolve_right hd.ne'
    omega

/-- `m` is the significand of the magnitude of `q`, in the binade of `2 ^ e`: nearest, and even if half way. -/
def roundsTo (q : Frac) (e m : Nat) : Prop :=
  (q.den * 2 ^ e ≤ q.num.natAbs ∧ q.num.natAbs < q.den * 2 ^ (e + 1)) ∧
  2 * (m * q.den) ≤ 2 * (q.num.natAbs * 2 ^ (23 - e)) + q.den ∧
  2 * (q.num.natAbs * 2 ^ (23 - e)) ≤ 2 * (m * q.den) + q.den ∧
  (2 * (m * q.den) = 2 * (q.num.natAbs * 2 ^ (23 - e)) + q.den ∨
    2 * (q.num.natAbs * 2 ^ (23 - e)) = 2 * (m * q.den) + q.den → m % 2 = 0)

theorem f32_of_roundsTo {q : Frac} {e m : Nat} (hd : 0 < q.den) (he : e ≤ 23) (h : roundsTo q e m) :
    f32 q = ⟨decide (q.num < 0), BitVec.ofNat 8 (e + 126 + m / 2 ^ 23), BitVec.ofNat 23 (m % 2 ^ 23)⟩ := by
  obtain ⟨⟨hlow, hhigh⟩, above, below, tie⟩ := h
  have hn : 0 < q.num.natAbs := lt_of_lt_of_le (by positivity) hlow
  have hd' : (0 : ℚ) < q.den := by exact_mod_cast hd
  have hlog : floorLog2 q.num.natAbs q.den = e := by
    apply floorLog2_unique _ _ hn hd
    · rw [le_div_iff₀ hd', zpow_natCast, mul_comm]
      exact_mod_cast hlow
    · rw [div_lt_iff₀ hd', mul_comm]
      exact_mod_cast hhigh
  obtain ⟨m', -, -, hm', hf⟩ := f32_normal q (Int.natAbs_pos.1 hn) hd e hlog (by omega) (by omega)
  have hexp : (23 - (e : Int)).toNat = 23 - e := by omega
  have hexp' : (-(23 - (e : Int))).toNat = 0 := by omega
  rw [hexp, hexp', pow_zero, mul_one, roundHalfEven_unique hd above below tie] at hm'
  rw [hf, hm', show ((e : Int) + 126).toNat = e + 126 by omega]

/-- Two fractions of one sign that round to one significand in one binade give the same binary32. -/
theorem f32_eq_of_roundsTo {p q : Frac} (e m : Nat) (hp : 0 < p.den) (hq : 0 < q.den) (he : e ≤ 23)
    (hsign : p.num < 0 ↔ q.num < 0) (hpm : roundsTo p e m) (hqm : roundsTo q e m) : f32 p = f32 q := by
  rw [f32_of_roundsTo hp he hpm, f32_of_roundsTo hq he hqm]
  simp only [hsign]

/-- Outside the band the magnitudes are at least `2 ^ 7`, where half the spacing is 5/4 units or more: the two
differences, one unit apart, round to the same significand. The cases are the binades, below and above 0; in that of
`2 ^ 9` the two-step difference is half way, and its even neighbour is the one towards the other difference. -/
theorem celsius_modes_agree {raw : BitVec 16} (h : ¬(2323 ≤ raw.toNat ∧ raw.toNat ≤ 6418)) :
    celsius .b32TwoStep raw = celsius .exactRne raw := by
  have hraw := raw.isLt
  have hagree (e m : Nat) (he : e ≤ 23)
      (hsign : (celsiusFrac .b32TwoStep raw).num < 0 ↔ (celsiusFrac .exactRne raw).num < 0)
      (h1 : roundsTo (celsiusFrac .b32TwoStep raw) e m) (h2 : roundsTo (celsiusFrac .exactRne raw) e m) :=
    f32_eq_of_roundsTo e m (by decide : 0 < 163840) (by decide : 0 < 163840) he hsign h1 h2
  simp only [roundsTo, celsiusFrac, offsetUnits] at hagree
  rw [celsius_eq_f32, celsius_eq_f32]
  simp only [celsiusFrac, offsetUnits]
  generalize raw.toNat = r at *
  rcases (by omega : r ≤ 274 ∨ (275 ≤ r ∧ r ≤ 2322) ∨ (6419 ≤ r ∧ r ≤ 8466) ∨ (8467 ≤ r ∧ r ≤ 12562) ∨
    (12563 ≤ r ∧ r ≤ 20754) ∨ (20755 ≤ r ∧ r ≤ 37138) ∨ 37139 ≤ r) with hr | hr | hr | hr | hr | hr | hr
  · exact hagree 8 (8950579 - 2048 * r) (by omega) (by omega) (by omega) (by omega)
  · exact hagree 7 (17901158 - 4096 * r) (by omega) (by omega) (by omega) (by omega)
  · exact hagree 7 (4096 * r - 17901158) (by omega) (by omega) (by omega) (by omega)
  · exact hagree 8 (2048 * r - 8950579) (by omega) (by omega) (by omega) (by omega)
  · exact hagree 9 (1024 * r - 4475290) (by omega) (by omega) (by omega) (by omega)
  · exact hagree 10 (512 * r - 2237645) (by omega) (by omega) (by omega) (by omega)
  · exact hagree 11 (256 * r - 1118822) (by omega) (by omega) (by omega) (by omega)

/-! ### Inside the band the modes differ -/

/-- Of two values that `f32` keeps, a fraction does not round to the one that is further away. -/
theorem f32_ne_of_nearer {p q r : Frac} (hr : 0 < r.den) (hrb : |r.toRat| < 2 ^ 128 - 2 ^ 103) (hq : 0 < q.den)
    (hqb : |q.toRat| < 2 ^ 128 - 2 ^ 103) (hp : (exact32 (f32 p)).toRat = p.toRat)
    (hre : (exact32 (f32 r)).toRat = r.toRat) (hlt : |r.toRat - q.toRat| < |p.toRat - q.toRat|) : f32 p ≠ f32 q := by
  intro hsame
  have hfinite := (f32RoundsToNearestTiesToEven r hr hrb).1
  have hnear := ((f32RoundsToNearestTiesToEven q hq hqb).2 (f32 r) hfinite).1
  rw [← hsame, hp, hre] at hnear
  exact absurd hnear (not_le.2 hlt)

/-- The two-step difference, written with its own denominator. -/
def twoStepFrac (raw : BitVec 16) : Frac := ⟨2048 * raw.toNat - 8950579, 2 ^ 15⟩

/-- A quarter of that denominator's unit below it, and so nearer to the exact decimal difference. -/
def nearerFrac (raw : BitVec 16) : Frac := ⟨8192 * raw.toNat - 35802317, 2 ^ 17⟩

theorem twoStepFrac_toRat (raw : BitVec 16) :
    (twoStepFrac raw).toRat = (raw.toNat : ℚ) / 16 - 8950579 / 32768 := by
  rw [twoStepFrac, Frac.toRat]
  push_cast
  ring

theorem twoStepFrac_sub_exact (raw : BitVec 16) :
    (twoStepFrac raw).toRat - (celsiusFrac .exactRne raw).toRat = 1 / 163840 := by
  rw [twoStepFrac_toRat, celsiusFrac, Frac.toRat, offsetUnits]
  push_cast
  ring

theorem nearerFrac_sub_exact (raw : BitVec 16) :
    (nearerFrac raw).toRat - (celsiusFrac .exactRne raw).toRat = -(1 / 655360) := by
  rw [nearerFrac, celsiusFrac, Frac.toRat, Frac.toRat, offsetUnits]
  push_cast
  ring

/-- Inside the band both differences above have at most 24 significant bits, so the exact one does not round to the
two-step one. -/
theorem celsius_modes_differ {raw : BitVec 16} (h : 2323 ≤ raw.toNat ∧ raw.toNat ≤ 6418) :
    celsius .b32TwoStep raw ≠ celsius .exactRne raw := by
  obtain ⟨hd, hnum, -⟩ := inNormalRange_celsiusFrac .exactRne raw
  have htwo : (twoStepFrac raw).num.natAbs < 2 ^ 24 := by simp only [twoStepFrac]; omega
  have hnear : (nearerFrac raw).num.natAbs < 2 ^ 24 := by simp only [nearerFrac]; omega
  have hnear_den : 0 < (nearerFrac raw).den := Nat.two_pow_pos 17
  rw [celsius_b32TwoStep_eq (Nat.two_pow_pos 15) (twoStepFrac_toRat raw), celsius_eq_f32]
  refine f32_ne_of_nearer hnear_den (abs_toRat_lt hnear_den (by omega)) hd (abs_toRat_lt hd hnum)
    (exact32_f32_of_dyadic (j := 15) rfl (by omega) htwo) (exact32_f32_of_dyadic (j := 17) rfl (by omega) hnear) ?_
  rw [twoStepFrac_sub_exact, nearerFrac_sub_exact]
  norm_num

/-- Settles O36: the two modes agree outside the band and differ inside it, and no two binary32 data share a word. -/
theorem celsiusModesDifferExactlyInBand : Obligations.CelsiusModesDifferExactlyInBand := by
  unfold Obligations.CelsiusModesDifferExactlyInBand
  intro raw
  refine ⟨fun hw hband => celsius_modes_differ hband (bits32_injective hw), fun hout => ?_⟩
  rw [celsius_modes_agree hout]

end Sys2Proof.Machine
end
